-- ==== Sys2Proof/Word.lean ====
section
/-!
DEFINITION. The values the block handles. Every value is unsigned and bit 0 is the least significant
bit (R14). Nothing is signed and no field on the wire is wider than a byte (R44).
-/

namespace Sys2Proof

/-- One byte of the serial stream, or an 8-bit field of a command or response (R14). -/
abbrev Byte := BitVec 8

/-- A time value: a 64-bit unsigned count of ticks (R15). -/
abbrev Time := BitVec 64

/-- The eight data byte lanes `d[0..7]` that come with a CHUNK command (R62). -/
abbrev Lanes := Vector Byte 8

end Sys2Proof
end

