-- ==== Sys2Proof/Config.lean ====
section
/-!
DEFINITION. The implementation parameters of 00_scope.md, rules R6 to R11. They are fixed when the block
is built and no command changes them. `Params` is what a builder asks for, any numbers at all; `Config`
is what a built block has. `Sys2Proof.Config.build` (Machine/Build.lean) goes from one to the other and
builds nothing from parameters outside their ranges (R153).
-/

namespace Sys2Proof

/-- `FRAME_LEN`, the chunk size and the frame size: 6 or 8 bytes (R6). -/
inductive FrameLen where
  /-- The 6-byte variant: no profile bank. -/
  | six
  /-- The 8-byte variant: it carries the profile-button bank. -/
  | eight
deriving DecidableEq, Repr

/-- `PROF_BIT_MODE`: how one profile-button byte becomes one raw bit (R11, R104). -/
inductive ProfBitMode where
  /-- The raw bit is bit 0 of the byte. The default. -/
  | lsb
  /-- The raw bit is 1 when the byte is not zero. -/
  | nonzero
deriving DecidableEq, Repr

/-- The parameters as a builder writes them. An absent interval takes its default: 50 ms and 300 ms in
ticks (R8, R9). -/
structure Params where
  frameLen      : Nat
  nInputs       : Nat
  ticksPerMs    : Nat := 1
  debounceTicks : Option Nat := none
  longTicks     : Option Nat := none
  profBitMode   : ProfBitMode := .lsb
deriving DecidableEq, Repr

/-- The parameters of a built block, each in its range by its type (R6, R7, R8, R9, R11). `ticksPerMs` only fixes
the unit of time and the two defaults (R10); no command reads it. -/
structure Config where
  frameLen      : FrameLen
  nInputs       : Fin 9
  debounceTicks : Time
  longTicks     : Time
  ticksPerMs    : Nat
  profBitMode   : ProfBitMode
deriving DecidableEq, Repr

/-- A FREE VALUE: the held duration reported when an instance that is Pressed is released although its `pressedTime` is
`NEVER`. R116 says this never happens (R33 (b)), so the spec gives it no value. It depends on the selector and on `now`.
DESIGN CHOICE, safe: nothing can be proved about the value (log 6). -/
opaque Config.unrecordedDuration : Nat → Time → Time

end Sys2Proof
end

