-- ==== Sys2Proof/Syntax.lean ====
section
/-!
DEFINITION. The commands of the block, one constructor per row of the opcode table (R61). Each keeps the whole of its
4-bit `ARG` field, the ignored ones too, so that no bit of a command byte is lost (R60, R64).
-/

namespace Sys2Proof

/-- A command with its operands (R60 to R65). -/
inductive Instr where
  /-- `NOP`, opcode 0x0; `arg` is ignored (R130). -/
  | nop (arg : BitVec 4)
  /-- `CHUNK n @now [d0..]`, opcode 0x1: the byte count, the eight data lanes and the time of one serial read (R62, R80). -/
  | chunk (n : BitVec 4) (d : Lanes) (now : Time)
  /-- `RDSTAT`, opcode 0x2; `arg` is ignored (R131). -/
  | rdstat (arg : BitVec 4)
  /-- `RDBTN sel`, opcode 0x3 (R63, R132). -/
  | rdbtn (sel : BitVec 4)
  /-- Reserved opcode 0x4; `arg` is ignored (R134). -/
  | reserved4 (arg : BitVec 4)
  /-- Reserved opcode 0x5; `arg` is ignored (R134). -/
  | reserved5 (arg : BitVec 4)
  /-- Reserved opcode 0x6; `arg` is ignored (R134). -/
  | reserved6 (arg : BitVec 4)
  /-- Reserved opcode 0x7; `arg` is ignored (R134). -/
  | reserved7 (arg : BitVec 4)
  /-- Reserved opcode 0x8; `arg` is ignored (R134). -/
  | reserved8 (arg : BitVec 4)
  /-- Reserved opcode 0x9; `arg` is ignored (R134). -/
  | reserved9 (arg : BitVec 4)
  /-- Reserved opcode 0xA; `arg` is ignored (R134). -/
  | reservedA (arg : BitVec 4)
  /-- Reserved opcode 0xB; `arg` is ignored (R134). -/
  | reservedB (arg : BitVec 4)
  /-- Reserved opcode 0xC; `arg` is ignored (R134). -/
  | reservedC (arg : BitVec 4)
  /-- Reserved opcode 0xD; `arg` is ignored (R134). -/
  | reservedD (arg : BitVec 4)
  /-- Reserved opcode 0xE; `arg` is ignored (R134). -/
  | reservedE (arg : BitVec 4)
  /-- `SRST`, opcode 0xF; `arg` is ignored (R133). -/
  | srst (arg : BitVec 4)
deriving DecidableEq, Repr

end Sys2Proof
end

