-- ==== Sys2Proof/WellFormed.lean ====
section
/-!
DEFINITION. What counts as a well-formed configuration. A configuration outside the ranges of R6 to R11 builds no
block (R153). EVERY term of `Instr` is a well-formed command: the widths of R60 and R62 are its types, and all 256 command
bytes are commands (R61), so commands need no check of their own. The assembler's statements do, and their check stands
beside them (`Asm.wf`, Machine/Assembler.lean).
-/

namespace Sys2Proof

/-- `DEBOUNCE_TICKS` as asked for, or its default 50 × `TICKS_PER_MS` (R8). -/
def Params.debounce (p : Params) : Nat := p.debounceTicks.getD (50 * p.ticksPerMs)

/-- `LONG_TICKS` as asked for, or its default 300 × `TICKS_PER_MS` (R9). -/
def Params.long (p : Params) : Nat := p.longTicks.getD (300 * p.ticksPerMs)

/-- The ranges of R6 to R10: `FRAME_LEN` is 6 or 8, `N_INPUTS` at most 8, `TICKS_PER_MS` positive and both intervals
64-bit numbers. -/
def Params.wf (p : Params) : Bool :=
  (p.frameLen == 6 || p.frameLen == 8) && decide (p.nInputs ≤ 8) && decide (0 < p.ticksPerMs) &&
    decide (p.debounce < 2 ^ 64) && decide (p.long < 2 ^ 64)

end Sys2Proof
end

