-- ==== Sys2Proof/Decode.lean ====
section
/-!
DEFINITION. From what the host puts on the command port to a command, and back. A command is one 8-bit byte, `OP` in
bits 7..4 and `ARG` in bits 3..0 (R60), and `OP` alone selects the command (R61). Every one of the 256 bytes is a command,
so decoding is total and rejects nothing.
-/

namespace Sys2Proof

/-- One transaction on the command port: the command byte, the eight data lanes and `now` (R60, R62). Only CHUNK reads the
lanes and `now` (R46, R135). -/
structure Command where
  byte  : Byte
  lanes : Lanes
  now   : Time
deriving DecidableEq, Repr

/-- `OP`, bits [7:4] of the command byte (R60). -/
def opField (b : Byte) : BitVec 4 := b.extractLsb' 4 4

/-- `ARG`, bits [3:0] of the command byte (R60). -/
def argField (b : Byte) : BitVec 4 := b.extractLsb' 0 4

/-- The opcode map of R61, entry `k` for `OP` = `k`. -/
def opcodeMap : Vector (Command → Instr) 16 :=
  #v[ fun c => .nop (argField c.byte),
      fun c => .chunk (argField c.byte) c.lanes c.now,
      fun c => .rdstat (argField c.byte),
      fun c => .rdbtn (argField c.byte),
      fun c => .reserved4 (argField c.byte),
      fun c => .reserved5 (argField c.byte),
      fun c => .reserved6 (argField c.byte),
      fun c => .reserved7 (argField c.byte),
      fun c => .reserved8 (argField c.byte),
      fun c => .reserved9 (argField c.byte),
      fun c => .reservedA (argField c.byte),
      fun c => .reservedB (argField c.byte),
      fun c => .reservedC (argField c.byte),
      fun c => .reservedD (argField c.byte),
      fun c => .reservedE (argField c.byte),
      fun c => .srst (argField c.byte) ]

/-- The command a transaction stands for (R60, R61). -/
def decode (c : Command) : Instr :=
  (opcodeMap[(opField c.byte).toNat]'(opField c.byte).isLt) c

/-- The command byte with the given `OP` and `ARG` (R60). -/
def commandByte (op arg : BitVec 4) : Byte := op ++ arg

/-- A transaction that carries no data: the lanes and `now` are not read, and the model writes zeros there (R46). -/
def plainCommand (op arg : BitVec 4) : Command :=
  ⟨commandByte op arg, Vector.replicate 8 0, 0⟩

/-- The transaction that issues a command: the match values of R61 with the argument in bits [3:0]. -/
def encode : Instr → Command
  | .nop arg       => plainCommand 0x0 arg
  | .chunk n d now => ⟨commandByte 0x1 n, d, now⟩
  | .rdstat arg    => plainCommand 0x2 arg
  | .rdbtn sel     => plainCommand 0x3 sel
  | .reserved4 arg => plainCommand 0x4 arg
  | .reserved5 arg => plainCommand 0x5 arg
  | .reserved6 arg => plainCommand 0x6 arg
  | .reserved7 arg => plainCommand 0x7 arg
  | .reserved8 arg => plainCommand 0x8 arg
  | .reserved9 arg => plainCommand 0x9 arg
  | .reservedA arg => plainCommand 0xA arg
  | .reservedB arg => plainCommand 0xB arg
  | .reservedC arg => plainCommand 0xC arg
  | .reservedD arg => plainCommand 0xD arg
  | .reservedE arg => plainCommand 0xE arg
  | .srst arg      => plainCommand 0xF arg

/-- A transaction laid out as one number, for `decodeTableWord` and `withFetchWord`: the command byte in bits 7..0, lane `i`
in bits 15+8i..8+8i, `now` in bits 135..72. The spec gives no such layout; it only says that the lanes and `now` come with
the command. DESIGN CHOICE, safe: no command's effect depends on it (log 7). -/
def commandOfNumber (w : Nat) : Command :=
  let bits := BitVec.ofNat 136 w
  ⟨bits.extractLsb' 0 8,
   #v[bits.extractLsb' 8 8, bits.extractLsb' 16 8, bits.extractLsb' 24 8, bits.extractLsb' 32 8,
      bits.extractLsb' 40 8, bits.extractLsb' 48 8, bits.extractLsb' 56 8, bits.extractLsb' 64 8],
   bits.extractLsb' 72 64⟩

/-- The command in the low `nbits` bits of `w`; every bit above them is 0. -/
def commandOfTableWord (nbits w : Nat) : Command := commandOfNumber (w % 2 ^ nbits)

/-- What the decoder reads from a row of the opcode table. -/
def decodeTableWord (nbits w : Nat) : Option Instr := some (decode (commandOfTableWord nbits w))

end Sys2Proof
end

