-- ==== Sys2Proof/Machine/State.lean ====
section
/-!
DEFINITION. The block's state (10_state.md), its response records (30_encoding.md, section 3), what the host can put on its
inputs, and the state right after reset (R170). All of it is plain data.
-/

namespace Sys2Proof.Machine

/-- A stored time, the spec's `Time⊥`: `none` is `NEVER` (R15). -/
abbrev StoredTime := Option Time

/-- One debounce record (R26). `level` is the accepted level, false Idle and true Pressed (R29). The names are the source's. -/
structure ButtonState where
  level            : Bool
  lastDebounceTime : StoredTime
  pressedTime      : StoredTime
  releasedTime     : StoredTime
deriving DecidableEq, Repr

/-- Idle, and no time recorded (R29 to R32, R170). -/
def ButtonState.reset : ButtonState := ⟨false, none, none, none⟩

/-- The block's whole architectural state (R21 to R32, R35). `btn` is indexed by selector: 0..7 macro, 8 prev, 9 next (R18). A
slot whose selector is not present stands for no state of the block; it keeps the reset value and nothing reads it
(DESIGN CHOICE, safe, log 5). -/
structure Block where
  lastOffset : BitVec 3
  syncOk     : Bool
  shortRd    : Bool
  errOp      : Bool
  errArg     : Bool
  btn        : Vector ButtonState 10
deriving DecidableEq, Repr

/-- The reset values of R170, the table of 10_state.md section 5. -/
def Block.reset : Block := ⟨0, false, false, false, false, Vector.replicate 10 ButtonState.reset⟩

/-- One release event: `EVT` holds `SRC` in bits 3..0, `KIND` in bit 4 and zeros above (R67). -/
structure Event where
  evt : Byte
  dur : Time
deriving DecidableEq, Repr

/-- FRAME_OUT, the CHUNK response (R66). -/
structure FrameOut where
  flags  : Byte
  btn    : Byte
  pot    : Byte
  prof   : Byte
  events : List Event
deriving DecidableEq, Repr

/-- BTNREC, the RDBTN response (R69). -/
structure BtnRec where
  bf  : Byte
  ldt : Time
  pt  : Time
  rt  : Time
deriving DecidableEq, Repr

/-- A response record (R66, R68, R69, R70). They are typed values and have no byte layout (R44). -/
inductive Response where
  | frameOut (r : FrameOut)
  | status (word : BitVec 16)
  | btnRec (r : BtnRec)
  /-- ACK, a record with no fields (R70). -/
  | ack
deriving DecidableEq, Repr

/-- What the host can do to the block: a transaction on the command port (R60, R62) or a pulse on the reset input (R170). -/
inductive HostInput where
  | command (c : Command)
  | reset
deriving DecidableEq, Repr

/-- The machine. `config` is the build (R6 to R11): no command writes it, and it stands here only because `exec` and `step` take
nothing else (log 1). `block` is the architectural state. `inbox` holds what the host has put on the inputs and the block has
not yet taken, oldest first (R50; log 3). `response` is the record the last completed command returned (R17; log 4). -/
structure State where
  config   : Config
  block    : Block
  inbox    : List HostInput
  response : Option Response
deriving DecidableEq, Repr

/-- Why the machine would stop with a fault. EMPTY: no command ever faults or hangs (R17), no trap exists (R150). -/
inductive Fault where
deriving DecidableEq, Repr

/-- Why a command has no meaning. -/
inductive Refusal where
  /-- Raised by `exec` for a command whose meaning is not written. No arm raises it: every command has its meaning. Safe. -/
  | notModelled (mnemonic : String)
  /-- Raised by CHUNK alone: a full read whose `now` is below the largest stored time of a present button. The spec refuses it
  and defines no next state (R17, R157). Safe: it errs toward unprovable. -/
  | timeRegress
deriving DecidableEq, Repr

/-- A block of a given build right after reset, nothing on its inputs and no response yet (R170, R171). -/
def State.resetWith (cfg : Config) : State := ⟨cfg, Block.reset, [], none⟩

/-- The build `State.reset` uses: the spec's defaults for the times, the unit and the profile-bit mode (R8 to R11). The spec has no
default for `FRAME_LEN` and `N_INPUTS`: the model takes 8 and 8, every button present. DESIGN CHOICE, unsafe where a
statement rests on it (log 2). -/
def standardConfig : Config := ⟨.eight, 8, 50, 300, 1, .lsb⟩

/-- The machine right after reset, with the standard build. -/
def State.reset : State := State.resetWith standardConfig

end Sys2Proof.Machine
end

