-- ==== Sys2Proof/Machine/Operands.lean ====
section
/-!
DEFINITION. The operand forms: the parameters as numbers, the selectors (R18), the chunk and the search buffer a full read
forms from the data lanes (R83), and the raw bit each button receives (R102, R104, R105, R106).
-/

namespace Sys2Proof

/-- `L`, `FRAME_LEN` as a number (R6). -/
def FrameLen.bytes : FrameLen → Nat
  | .six   => 6
  | .eight => 8

/-- `L` of a build (R6). -/
def Config.len (cfg : Config) : Nat := cfg.frameLen.bytes

/-- `PAYLOAD_LEN` = `L` − 4 (R13). -/
def Config.payloadLen (cfg : Config) : Nat := cfg.len - 4

namespace Machine

/-- The signature `SIG`, in this byte order (R12). -/
def sig : List Byte := [0x02, 0x04, 0x03, 0x04]

/-- `present(s)`: a macro button below `N`, or a profile button when `L` = 8 (R18). -/
def present (cfg : Config) (s : Nat) : Bool :=
  if s < 8 then decide (s < cfg.nInputs.val) else decide (s < 10) && decide (cfg.frameLen = .eight)

/-- The present selectors in the order the bank step visits them: the macro bank ascending, then prev, then next (R118, R119). -/
def presentSelectors (cfg : Config) : List (Fin 10) :=
  (List.finRange 10).filter fun s => present cfg s.val

/-- `chunk[i]` = `d[i]` for `i` = 0..`L`−1 (R42, R83). -/
def chunkBytes (cfg : Config) (d : Lanes) : List Byte := d.toList.take cfg.len

/-- `search` = `chunk ++ chunk` (R83). -/
def searchBuffer (chunk : List Byte) : List Byte := chunk ++ chunk

/-- The raw bit of a profile byte before inversion (R104). -/
def rawProfileBit (mode : ProfBitMode) (b : Byte) : Bool :=
  match mode with
  | .lsb     => b.getLsbD 0
  | .nonzero => decide (b ≠ 0)

/-- `pressed(b)` = 1 − `raw(b)` (R105). -/
def profilePressed (mode : ProfBitMode) (b : Byte) : Bool := !rawProfileBit mode b

/-- The bit that feeds instance `s`: bit `s` of `BTN` for a macro button (R102), `PROF[0]` for prev and `PROF[1]` for next
(R106). -/
def feedBit (btn : Byte) (prof : BitVec 2) (s : Nat) : Bool :=
  if s < 8 then btn.getLsbD s else prof.getLsbD (s - 8)

end Machine

end Sys2Proof
end

