-- ==== Sys2Proof/Machine/Flags.lean ====
section
/-!
DEFINITION. Every flag and every packed field: the sticky error flags (R24), the two status bits CHUNK writes (R22, R23), the
status word (R68), and the flag bytes of the three response records (R66, R67, R69). Reserved bits read 0.
-/

namespace Sys2Proof.Machine

/-- One bit as a field of width `w`. -/
def bit (w : Nat) (b : Bool) : BitVec w := (BitVec.ofBool b).setWidth w

/-- `flag(ERR_OP)` (R16, R24). -/
def flagErrOp (b : Block) : Block := { b with errOp := true }

/-- `flag(ERR_ARG)` (R16, R24). -/
def flagErrArg (b : Block) : Block := { b with errArg := true }

/-- What a short read writes: `SYNC_OK <- 0`, `SHORT_RD <- 1` (R22, R23, R82). -/
def markShortRead (b : Block) : Block := { b with syncOk := false, shortRd := true }

/-- What a full read writes: `SYNC_OK` says whether the scan found the signature, `SHORT_RD <- 0` (R22, R23, R85). -/
def markFullRead (found : Bool) (b : Block) : Block := { b with syncOk := found, shortRd := false }

/-- The STATUS word (R68, R131). -/
def statusWord (cfg : Config) (b : Block) : BitVec 16 :=
  b.lastOffset.setWidth 16
    ||| (bit 16 b.syncOk <<< 3) ||| (bit 16 b.shortRd <<< 4)
    ||| (bit 16 b.errOp <<< 5) ||| (bit 16 b.errArg <<< 6)
    ||| (bit 16 (decide (cfg.frameLen = .eight)) <<< 7) ||| (BitVec.ofNat 16 cfg.nInputs.val <<< 8)

/-- `FLAGS` of FRAME_OUT: `FRAME_VALID`, `SYNC_OK`, `OFFSET` and three zeros (R66). -/
def frameFlags (valid sync : Bool) (offset : BitVec 3) : Byte :=
  bit 8 valid ||| (bit 8 sync <<< 1) ||| (offset.setWidth 8 <<< 2)

/-- `KIND` of a release held for `d` ticks: false SHORT, true LONG. A duration equal to `LONG_TICKS` is LONG (R115). -/
def isLongPress (cfg : Config) (d : Time) : Bool := !decide (d < cfg.longTicks)

/-- `EVT` of a release event: `SRC`, `KIND` and three zeros (R67). -/
def eventByte (s : Nat) (long : Bool) : Byte := (BitVec.ofNat 4 s).setWidth 8 ||| (bit 8 long <<< 4)

/-- `BF` of BTNREC for a present instance (R69). -/
def recordFlags (st : ButtonState) : Byte :=
  bit 8 true ||| (bit 8 st.level <<< 1) ||| (bit 8 st.lastDebounceTime.isSome <<< 2)
    ||| (bit 8 st.pressedTime.isSome <<< 3) ||| (bit 8 st.releasedTime.isSome <<< 4)

end Sys2Proof.Machine
end

