-- ==== Sys2Proof/Machine/Ops.lean ====
section
/-!
DEFINITION. The operations the meanings share: returning a response, reset, the stored times and the time precondition, the
selector access, and taking the next input. The block has no trap, so there is no exception to take: a condition completes its
command and sets a flag (R150).
-/

namespace Sys2Proof.Machine

/-- The three outcomes of one step of this machine. -/
abbrev Result := Host.Outcome State Fault Refusal

/-- A completed command: the block's new state and exactly one response record (R17, `respond` of R16). -/
def complete (block : Block) (r : Response) (s : State) : Result :=
  .next { s with block := block, response := some r }

/-- `resetState()` (R170). -/
def resetState (_ : Block) : Block := Block.reset

/-- A pulse on the reset input: `resetState()`, and no response (R170). Inputs the host gives after it still come. -/
def hardwareReset (s : State) : State := { s with block := resetState s.block, response := none }

/-- The meaning of every reserved opcode: `flag(ERR_OP); respond(ACK)` (R134). -/
def reservedOpcode (s : State) : Result := complete (flagErrOp s.block) .ack s

/-- `btn[s]` (R26). -/
def readButton (b : Block) (s : Fin 10) : ButtonState := b.btn[s]

/-- The times one instance has stored: those of its three time fields that are not `NEVER` (R157). -/
def storedTimes (st : ButtonState) : List Time :=
  st.lastDebounceTime.toList ++ st.pressedTime.toList ++ st.releasedTime.toList

/-- The stored times of every present instance (R157). -/
def allStoredTimes (cfg : Config) (b : Block) : List Time :=
  (presentSelectors cfg).flatMap fun s => storedTimes (readButton b s)

/-- The larger of a time seen so far, if any, and the next one. -/
def laterTime (best : Option Time) (t : Time) : Option Time :=
  match best with
  | none   => some t
  | some m => if m < t then some t else some m

/-- `T` of R157: the largest stored time of a present instance, if there is one. -/
def largestStoredTime (cfg : Config) (b : Block) : Option Time :=
  (allStoredTimes cfg b).foldl laterTime none

/-- `timeRegress(now)`: `T` exists and `now` < `T` (R157). -/
def timeRegress (cfg : Config) (b : Block) (now : Time) : Bool :=
  match largestStoredTime cfg b with
  | none   => false
  | some t => decide (now < t)

/-- The next input and the state without it; none when the host has put nothing on the inputs (R50). -/
def takeInput (s : State) : Option (HostInput × State) :=
  match s.inbox with
  | []        => none
  | i :: rest => some (i, { s with inbox := rest })

end Sys2Proof.Machine
end

