-- ==== Sys2Proof/Machine/Debounce.lean ====
section
/-!
DEFINITION. The debounce state machine (42_debounce.md): one instance's step (R110) and the bank step (R118).
-/

namespace Sys2Proof.Machine

/-- Is a press edge at `now` accepted? Yes when no press was accepted since reset, or at least `DEBOUNCE_TICKS` have passed since
the last accepted one (R111, R112). The subtraction is exact: CHUNK refuses a `now` below a stored time (R15, R157). -/
def pressAccepted (cfg : Config) (st : ButtonState) (now : Time) : Bool :=
  match st.lastDebounceTime with
  | none   => true
  | some t => decide (cfg.debounceTicks ≤ now - t)

/-- The held duration of a release at `now` (R116). A Pressed instance always has a `pressedTime` (R33 (b)); where it has none the
duration is a free value (log 6). -/
def heldDuration (s : Nat) (st : ButtonState) (now : Time) : Time :=
  match st.pressedTime with
  | some t => now - t
  | none   => Config.unrecordedDuration s now

/-- What an accepted press writes (R111). -/
def acceptPress (st : ButtonState) (now : Time) : ButtonState :=
  { st with level := true, pressedTime := some now, lastDebounceTime := some now }

/-- What a release writes (R113). -/
def acceptRelease (st : ButtonState) (now : Time) : ButtonState :=
  { st with level := false, releasedTime := some now }

/-- The release event of instance `s` (R115, R116, R117). -/
def releaseEvent (cfg : Config) (s : Nat) (st : ButtonState) (now : Time) : Event :=
  let d := heldDuration s st now
  ⟨eventByte s (isLongPress cfg d), d⟩

/-- One instance's step, `step(s, st, raw, now)` (R110 to R117). -/
def stepButton (cfg : Config) (s : Nat) (st : ButtonState) (raw : Bool) (now : Time) : ButtonState × Option Event :=
  match st.level, raw with
  | false, true  => if pressAccepted cfg st now then (acceptPress st now, none) else (st, none)
  | true, false  => (acceptRelease st now, some (releaseEvent cfg s st now))
  | false, false => (st, none)
  | true, true   => (st, none)

/-- One turn of the loop of R118: step instance `s` with its bit and append its event, if any. -/
def bankTurn (cfg : Config) (btn : Byte) (prof : BitVec 2) (now : Time)
    (acc : Vector ButtonState 10 × List Event) (s : Fin 10) : Vector ButtonState 10 × List Event :=
  let r := stepButton cfg s.val acc.1[s] (feedBit btn prof s.val) now
  (acc.1.set s.val r.1 s.isLt, acc.2 ++ r.2.toList)

/-- `bankStep(btn, prof, now)`: every present instance once, all with the one `now` (R118, R119, R120). -/
def bankStep (cfg : Config) (btn : Byte) (prof : BitVec 2) (now : Time) (bank : Vector ButtonState 10) :
    Vector ButtonState 10 × List Event :=
  (presentSelectors cfg).foldl (bankTurn cfg btn prof now) (bank, [])

end Sys2Proof.Machine
end

