-- ==== Sys2Proof/Machine/FrameSync.lean ====
section
/-!
DEFINITION. The frame synchronizer of a full read: the signature scan (R84), offset tracking (R85) and payload extraction
(R86).
-/

namespace Sys2Proof.Machine

/-- Does `search[i..i+4)` equal `SIG`? (R84) -/
def windowMatches (search : List Byte) (i : Nat) : Bool := decide ((search.drop i).take 4 = sig)

/-- The least `i` in 0..`L`−1 whose window equals `SIG`, or none (R84). -/
def scan (len : Nat) (search : List Byte) : Option Nat :=
  (List.range len).find? (windowMatches search)

/-- Offset tracking: a match is the new `lastOffset`; with none it keeps its value (R85). -/
def trackOffset (found : Option Nat) (lastOffset : BitVec 3) : BitVec 3 :=
  match found with
  | some m => BitVec.ofNat 3 m
  | none   => lastOffset

/-- `payload[k]` = `chunk[(off + 4 + k) mod L]` (R86). The index is always inside a chunk of length `L`, so the default of
`getD` is never taken. -/
def payloadByte (len : Nat) (chunk : List Byte) (off k : Nat) : Byte := chunk.getD ((off + 4 + k) % len) 0

/-- The `PAYLOAD_LEN` payload bytes at `off` (R13, R86). -/
def extractPayload (cfg : Config) (chunk : List Byte) (off : Nat) : List Byte :=
  (List.range cfg.payloadLen).map (payloadByte cfg.len chunk off)

end Sys2Proof.Machine
end

