-- ==== Sys2Proof/Machine/PayloadDecode.lean ====
section
/-!
DEFINITION. The payload decoder (41_payload_decode.md): a pure function with no state (R100).
-/

namespace Sys2Proof.Machine

/-- What the decoder gives: `btn`, `pot` and `prof` (R100). -/
structure Decoded where
  btn  : Byte
  pot  : Byte
  prof : BitVec 2
deriving DecidableEq, Repr

/-- `byteToBits(c)`: the eight bits, most significant first, "as transmitted" (R101). -/
def byteToBits (c : Byte) : List Bool :=
  [c.getLsbD 7, c.getLsbD 6, c.getLsbD 5, c.getLsbD 4, c.getLsbD 3, c.getLsbD 2, c.getLsbD 1, c.getLsbD 0]

/-- `buttonBits`: the reversed list, so that index `k` is logical button `k` (R101). -/
def buttonBits (c : Byte) : List Bool := (byteToBits c).reverse

/-- The list packed with element `k` at bit `k` (R101). -/
def packBits : List Bool → Byte
  | []      => 0
  | b :: bs => bit 8 b ||| (packBits bs <<< 1)

/-- The profile bits of an 8-byte frame: prev at bit 0, next at bit 1 (R106). -/
def profileBits (mode : ProfBitMode) (prevByte nextByte : Byte) : BitVec 2 :=
  bit 2 (profilePressed mode prevByte) ||| (bit 2 (profilePressed mode nextByte) <<< 1)

/-- The decoder on the payload bytes (R100 to R107). With `L` = 6 there are no profile bytes and `prof` is 0 (R107). The payload has
`PAYLOAD_LEN` bytes, so no default of `getD` is ever taken. -/
def decodePayload (cfg : Config) (payload : List Byte) : Decoded :=
  { btn  := packBits (buttonBits (payload.getD 0 0))
    pot  := payload.getD 1 0
    prof := match cfg.frameLen with
      | .six   => 0
      | .eight => profileBits cfg.profBitMode (payload.getD 2 0) (payload.getD 3 0) }

end Sys2Proof.Machine
end

