-- ==== Sys2Proof/Machine/Chunk.lean ====
section
/-!
DEFINITION. CHUNK, the block's one data command (R80): length classification (R81, R82), the time precondition (R157), then the
synchronizer, the decoder and the bank as one step (R47).
-/

namespace Sys2Proof.Machine

/-- The FRAME_OUT of a CHUNK that decoded no frame: `OFFSET` is `lastOffset`, all else 0 (R66, R81, R82). -/
def noFrame (b : Block) : Response := .frameOut ⟨frameFlags false false b.lastOffset, 0, 0, 0, []⟩

/-- `n` > `L`: `flag(ERR_ARG)`, nothing else (R81). -/
def overlongRead (s : State) : Result := complete (flagErrArg s.block) (noFrame s.block) s

/-- `n` < `L`: `SYNC_OK <- 0`, `SHORT_RD <- 1`, no scan, no decode, no debounce step (R82). -/
def shortRead (s : State) : Result := complete (markShortRead s.block) (noFrame s.block) s

/-- The block and the response a full read leaves (R80, rules R83 to R86, R100 to R107, R118). -/
def fullReadEffect (cfg : Config) (d : Lanes) (now : Time) (b : Block) : Block × Response :=
  let chunk := chunkBytes cfg d
  let found := scan cfg.len (searchBuffer chunk)
  let off   := trackOffset found b.lastOffset
  let out   := decodePayload cfg (extractPayload cfg chunk off.toNat)
  let bank  := bankStep cfg out.btn out.prof now b.btn
  (markFullRead found.isSome { b with lastOffset := off, btn := bank.1 },
   .frameOut ⟨frameFlags true found.isSome off, out.btn, out.pot, out.prof.setWidth 8, bank.2⟩)

/-- `n` = `L`: refused on a time regress, else the whole data path (R80, R156, R157). -/
def fullRead (d : Lanes) (now : Time) (s : State) : Result :=
  if timeRegress s.config s.block now then .refused .timeRegress
  else
    let r := fullReadEffect s.config d now s.block
    complete r.1 r.2 s

/-- `CHUNK n @now [d0..d(n-1)]` (R80). The checks come in the order of R156. -/
def execChunk (n : BitVec 4) (d : Lanes) (now : Time) (s : State) : Result :=
  if s.config.len < n.toNat then overlongRead s
  else if n.toNat < s.config.len then shortRead s
  else fullRead d now s

end Sys2Proof.Machine
end

