-- ==== Sys2Proof/Machine/Control.lean ====
section
/-!
DEFINITION. The control and read commands (43_control_ops.md): NOP, RDSTAT, RDBTN and SRST. None reads `now` and none is refused
(R135).
-/

namespace Sys2Proof.Machine

/-- `NOP`: `respond(ACK)`, for every `ARG` (R64, R130). -/
def execNop (_arg : BitVec 4) (s : State) : Result := complete s.block .ack s

/-- `RDSTAT`: respond the status word; reading clears nothing (R64, R131). -/
def execRdstat (_arg : BitVec 4) (s : State) : Result := complete s.block (.status (statusWord s.config s.block)) s

/-- BTNREC with every field 0 (R69). -/
def emptyRecord : BtnRec := ⟨0, 0, 0, 0⟩

/-- BTNREC of a present instance: a time that is `NEVER` reads 0 with its valid bit 0 (R69, R132). -/
def buttonRecord (st : ButtonState) : BtnRec :=
  ⟨recordFlags st, st.lastDebounceTime.getD 0, st.pressedTime.getD 0, st.releasedTime.getD 0⟩

/-- `RDBTN sel` (R132). Selectors 10..15 name no instance and set `ERR_ARG`; an absent instance reads all 0 with no error. -/
def execRdbtn (sel : BitVec 4) (s : State) : Result :=
  if h : sel.toNat < 10 then
    if present s.config sel.toNat then
      complete s.block (.btnRec (buttonRecord (readButton s.block ⟨sel.toNat, h⟩))) s
    else complete s.block (.btnRec emptyRecord) s
  else complete (flagErrArg s.block) (.btnRec emptyRecord) s

/-- `SRST`: `resetState(); respond(ACK)` (R133, R170). -/
def execSrst (_arg : BitVec 4) (s : State) : Result := complete (resetState s.block) .ack s

end Sys2Proof.Machine
end

