-- ==== Sys2Proof/Machine/Reserved.lean ====
section
/-!
DEFINITION. The reserved opcodes 0x4 to 0xE. Each sets `ERR_OP`, changes nothing else and returns an ACK, whatever its `ARG`
(R65, R134).
-/

namespace Sys2Proof.Machine

/-- Reserved opcode 0x4 (R134). -/
def execReserved4 (_arg : BitVec 4) (s : State) : Result := reservedOpcode s

/-- Reserved opcode 0x5 (R134). -/
def execReserved5 (_arg : BitVec 4) (s : State) : Result := reservedOpcode s

/-- Reserved opcode 0x6 (R134). -/
def execReserved6 (_arg : BitVec 4) (s : State) : Result := reservedOpcode s

/-- Reserved opcode 0x7 (R134). -/
def execReserved7 (_arg : BitVec 4) (s : State) : Result := reservedOpcode s

/-- Reserved opcode 0x8 (R134). -/
def execReserved8 (_arg : BitVec 4) (s : State) : Result := reservedOpcode s

/-- Reserved opcode 0x9 (R134). -/
def execReserved9 (_arg : BitVec 4) (s : State) : Result := reservedOpcode s

/-- Reserved opcode 0xA (R134). -/
def execReservedA (_arg : BitVec 4) (s : State) : Result := reservedOpcode s

/-- Reserved opcode 0xB (R134). -/
def execReservedB (_arg : BitVec 4) (s : State) : Result := reservedOpcode s

/-- Reserved opcode 0xC (R134). -/
def execReservedC (_arg : BitVec 4) (s : State) : Result := reservedOpcode s

/-- Reserved opcode 0xD (R134). -/
def execReservedD (_arg : BitVec 4) (s : State) : Result := reservedOpcode s

/-- Reserved opcode 0xE (R134). -/
def execReservedE (_arg : BitVec 4) (s : State) : Result := reservedOpcode s

end Sys2Proof.Machine
end

