-- ==== Sys2Proof/Machine/Dispatch.lean ====
section
/-!
DEFINITION. The dispatch: one arm per command.
-/

namespace Sys2Proof.Machine

def exec (i : Instr) (s : State) : Host.Outcome State Fault Refusal :=
  match i with
  | .nop arg => Sys2Proof.Machine.execNop arg s
  | .chunk n d now => Sys2Proof.Machine.execChunk n d now s
  | .rdstat arg => Sys2Proof.Machine.execRdstat arg s
  | .rdbtn sel => Sys2Proof.Machine.execRdbtn sel s
  | .reserved4 arg => Sys2Proof.Machine.execReserved4 arg s
  | .reserved5 arg => Sys2Proof.Machine.execReserved5 arg s
  | .reserved6 arg => Sys2Proof.Machine.execReserved6 arg s
  | .reserved7 arg => Sys2Proof.Machine.execReserved7 arg s
  | .reserved8 arg => Sys2Proof.Machine.execReserved8 arg s
  | .reserved9 arg => Sys2Proof.Machine.execReserved9 arg s
  | .reservedA arg => Sys2Proof.Machine.execReservedA arg s
  | .reservedB arg => Sys2Proof.Machine.execReservedB arg s
  | .reservedC arg => Sys2Proof.Machine.execReservedC arg s
  | .reservedD arg => Sys2Proof.Machine.execReservedD arg s
  | .reservedE arg => Sys2Proof.Machine.execReservedE arg s
  | .srst arg => Sys2Proof.Machine.execSrst arg s

end Sys2Proof.Machine
end

