-- ==== Sys2Proof/Machine/Step.lean ====
section
/-!
DEFINITION. One step: take the next input the host has put on the block and do it (R50). The block has no program counter and
fetches nothing from memory (R20): the commands come from outside, one at a time.
-/

namespace Sys2Proof.Machine

/-- One step. With no input waiting the block does nothing and keeps its state (R162; DESIGN CHOICE, log 3). -/
def step (s : State) : Host.Outcome State Fault Refusal :=
  match takeInput s with
  | none                => .next s
  | some (.reset, s')   => .next (hardwareReset s')
  | some (.command c, s') => exec (decode c) s'

/-- The state in which the host presents the command of an opcode-table word next. Nothing else changes: inputs already waiting
come after it. -/
def State.withFetchWord (s : State) (nbits w : Nat) : State :=
  { s with inbox := .command (commandOfTableWord nbits w) :: s.inbox }

end Sys2Proof.Machine
end

