-- ==== Sys2Proof/Machine/Assembler.lean ====
section
/-!
DEFINITION. The text syntax and the pseudo-instructions the spec writes commands in (R72, R73). It is the host's notation for a
command stream; no command's effect depends on it. The spec does not say which white space or letter case it allows: DESIGN CHOICE,
log 8.
-/

namespace Sys2Proof.Machine

/-- One line of assembler: the statements of R72 and the pseudo-instructions of R73. Numbers are as written, unchecked. -/
inductive Asm where
  | nop
  | chunk (n t : Nat) (bytes : List Nat)
  | rdstat
  | rdbtn (sel : Nat)
  | srst
  /-- `.cmd c`, a raw command byte. -/
  | cmd (c : Nat)
  | frame6 (c p t : Nat)
  | frame8 (c p rp rn t : Nat)
  | rdbtnPrev
  | rdbtnNext
  /-- `RESET`. -/
  | resetPseudo
deriving DecidableEq, Repr

/-- A pseudo-instruction as the one command it expands to (R73). -/
def Asm.expand : Asm → Asm
  | .frame6 c p t       => .chunk 6 t [2, 4, 3, 4, c, p]
  | .frame8 c p rp rn t => .chunk 8 t [2, 4, 3, 4, c, p, rp, rn]
  | .rdbtnPrev          => .rdbtn 8
  | .rdbtnNext          => .rdbtn 9
  | .resetPseudo        => .srst
  | a                   => a

/-- The condition column of R73: `FRAME6` needs `L` = 6, `FRAME8` needs `L` = 8. -/
def Asm.fitsBuild (cfg : Config) : Asm → Bool
  | .frame6 ..  => decide (cfg.frameLen = .six)
  | .frame8 ..  => decide (cfg.frameLen = .eight)
  | _           => true

/-- The operand ranges of R72: `n` and `sel` 0..15, exactly min(`n`, 8) bytes, 64-bit `t`. A raw byte is any byte but a CHUNK, which
has no place for its lanes and time there (log 8). -/
def Asm.inRange : Asm → Bool
  | .chunk n t bytes =>
      decide (n ≤ 15) && decide (t < 2 ^ 64) && decide (bytes.length = min n 8) && bytes.all (fun b => decide (b ≤ 255))
  | .rdbtn sel => decide (sel ≤ 15)
  | .cmd c     => decide (c ≤ 255) && decide (c / 16 ≠ 1)
  | _          => true

/-- A statement the assembler accepts for a build. -/
def Asm.wf (cfg : Config) (a : Asm) : Bool := a.fitsBuild cfg && a.expand.inRange

/-- The data lanes of a byte list; lanes not listed are don't-cares and the assembler writes 0 (R72). -/
def lanesOfList (bytes : List Nat) : Lanes :=
  let lane := fun i => BitVec.ofNat 8 (bytes.getD i 0)
  #v[lane 0, lane 1, lane 2, lane 3, lane 4, lane 5, lane 6, lane 7]

/-- The transaction of an expanded statement: the command byte column of R72. -/
def Asm.transaction : Asm → Command
  | .nop             => ⟨0x00, lanesOfList [], 0⟩
  | .chunk n t bytes => ⟨0x10 ||| BitVec.ofNat 8 n, lanesOfList bytes, BitVec.ofNat 64 t⟩
  | .rdstat          => ⟨0x20, lanesOfList [], 0⟩
  | .rdbtn sel       => ⟨0x30 ||| BitVec.ofNat 8 sel, lanesOfList [], 0⟩
  | .srst            => ⟨0xF0, lanesOfList [], 0⟩
  | .cmd c           => ⟨BitVec.ofNat 8 c, lanesOfList [], 0⟩
  | .frame6 c p t    => ⟨0x16, lanesOfList [2, 4, 3, 4, c, p], BitVec.ofNat 64 t⟩
  | .frame8 c p rp rn t => ⟨0x18, lanesOfList [2, 4, 3, 4, c, p, rp, rn], BitVec.ofNat 64 t⟩
  | .rdbtnPrev       => ⟨0x38, lanesOfList [], 0⟩
  | .rdbtnNext       => ⟨0x39, lanesOfList [], 0⟩
  | .resetPseudo     => ⟨0xF0, lanesOfList [], 0⟩

/-- Assemble one statement for a build: none when it is out of range or does not fit the build (R72, R73). -/
def assemble (cfg : Config) (a : Asm) : Option Command :=
  if a.wf cfg then some a.expand.transaction else none

/-! ### The text -/

/-- A token of one line. -/
inductive Token where
  | word (cs : List Char)
  | num (n : Nat)
  | sym (c : Char)
deriving DecidableEq, Repr

/-- The value of a digit character in a base up to 16. -/
def digitValue (c : Char) : Option Nat :=
  if '0' ≤ c ∧ c ≤ '9' then some (c.toNat - 48)
  else if 'a' ≤ c ∧ c ≤ 'f' then some (c.toNat - 87)
  else if 'A' ≤ c ∧ c ≤ 'F' then some (c.toNat - 55)
  else none

/-- The number a nonempty digit string writes in a base. -/
def readDigits (base : Nat) (cs : List Char) : Option Nat :=
  if cs = [] then none
  else cs.foldl (fun acc c => acc.bind fun n => (digitValue c).bind fun v => if v < base then some (n * base + v) else none) (some 0)

/-- Numbers are decimal, or hex with a `0x` prefix (R72). -/
def readNumber (cs : List Char) : Option Nat :=
  match cs with
  | '0' :: 'x' :: hs => readDigits 16 hs
  | _                => readDigits 10 cs

/-- A run of letters, digits and dots as a token. -/
def lexeme (cs : List Char) : Option Token :=
  if (cs.headD 'x').isDigit then (readNumber cs).map .num else some (.word cs)

/-- Put the run read so far, kept in reverse, before the tokens that follow it. -/
def emitRun (run : List Char) (rest : List Token) : Option (List Token) :=
  if run = [] then some rest else (lexeme run.reverse).map (· :: rest)

/-- The tokens of a line without its comment. -/
def tokenize : List Char → List Char → Option (List Token)
  | [], run => emitRun run []
  | c :: cs, run =>
    if c.isAlphanum || c == '.' then tokenize cs (c :: run)
    else if c == ' ' || c == '\t' || c == '\r' then (tokenize cs []).bind (emitRun run)
    else if c == '@' || c == '[' || c == ']' || c == ',' then (tokenize cs []).bind fun ts => emitRun run (.sym c :: ts)
    else none

/-- The rest of a byte list after its first byte. -/
def readBytesTail : List Token → Option (List Nat)
  | [.sym ']']                 => some []
  | .sym ',' :: .num b :: rest => (readBytesTail rest).map (b :: ·)
  | _                          => none

/-- A byte list after its opening bracket. -/
def readBytes : List Token → Option (List Nat)
  | [.sym ']']     => some []
  | .num b :: rest => (readBytesTail rest).map (b :: ·)
  | _              => none

/-- A statement that takes no operand. -/
def noOperand (a : Asm) (args : List Token) : Option Asm := if args = [] then some a else none

/-- The operands of `CHUNK n @t [b0, b1, ...]`. -/
def readChunk : List Token → Option Asm
  | .num n :: .sym '@' :: .num t :: .sym '[' :: rest => (readBytes rest).map (.chunk n t)
  | _ => none

/-- The operand of `RDBTN`: a selector, `prev` or `next`. -/
def readRdbtn : List Token → Option Asm
  | [.num s]  => some (.rdbtn s)
  | [.word w] => if w = "prev".toList then some .rdbtnPrev else if w = "next".toList then some .rdbtnNext else none
  | _         => none

/-- The operand of `.cmd`. -/
def readCmd : List Token → Option Asm
  | [.num c] => some (.cmd c)
  | _        => none

/-- The operands of `FRAME6 c, p @t`. -/
def readFrame6 : List Token → Option Asm
  | [.num c, .sym ',', .num p, .sym '@', .num t] => some (.frame6 c p t)
  | _ => none

/-- The operands of `FRAME8 c, p, rp, rn @t`. -/
def readFrame8 : List Token → Option Asm
  | [.num c, .sym ',', .num p, .sym ',', .num rp, .sym ',', .num rn, .sym '@', .num t] => some (.frame8 c p rp rn t)
  | _ => none

/-- The statements of R72 and R73 by their first word. -/
def statements : List (List Char × (List Token → Option Asm)) :=
  [ ("NOP".toList, noOperand .nop), ("CHUNK".toList, readChunk), ("RDSTAT".toList, noOperand .rdstat),
    ("RDBTN".toList, readRdbtn), ("SRST".toList, noOperand .srst), (".cmd".toList, readCmd),
    ("FRAME6".toList, readFrame6), ("FRAME8".toList, readFrame8), ("RESET".toList, noOperand .resetPseudo) ]

/-- One line of tokens: `some none` for a line with no statement. -/
def readStatement : List Token → Option (Option Asm)
  | []              => some none
  | .word w :: args => ((statements.find? (·.1 = w)).bind (·.2 args)).map some
  | _               => none

/-- One line of text; `;` starts a comment (R72). -/
def parseLine (line : List Char) : Option (Option Asm) :=
  (tokenize (line.takeWhile (· ≠ ';')) []).bind readStatement

/-- The text cut at its line ends: one command per line (R72). -/
def splitLines (text : List Char) : List (List Char) :=
  text.foldr (fun c acc => if c = '\n' then [] :: acc else (c :: acc.headD []) :: acc.tail) [[]]

/-- The command stream a text stands for on a build, or none if a line is no statement or does not assemble. -/
def assembleText (cfg : Config) (text : List Char) : Option (List Command) :=
  (splitLines text).foldr (fun line acc => acc.bind fun cs =>
    match parseLine line with
    | none          => none
    | some none     => some cs
    | some (some a) => (assemble cfg a).map (· :: cs)) (some [])

end Sys2Proof.Machine
end

