-- ==== Sys2Proof/Machine/Build.lean ====
section
/-!
DEFINITION. Building a block from parameters (R153, R172). It happens once, before reset; no command configures the block (R171).
-/

namespace Sys2Proof

/-- The block's configuration, or none: parameters outside their ranges build no block (R6 to R11, R153). -/
def Config.build (p : Params) : Option Config :=
  if p.wf then
    some { frameLen      := if p.frameLen = 8 then .eight else .six
           nInputs       := Fin.ofNat 9 p.nInputs
           debounceTicks := BitVec.ofNat 64 p.debounce
           longTicks     := BitVec.ofNat 64 p.long
           ticksPerMs    := p.ticksPerMs
           profBitMode   := p.profBitMode }
  else none

/-- Build and reset, the first steps of R172: the state in which the first command may arrive. -/
def Machine.boot (p : Params) : Option Machine.State := (Config.build p).map Machine.State.resetWith

end Sys2Proof
end

