-- ==== Sys2Proof/Safety.lean ====
section
/-!
DEFINITION. What counts as a good state and a run: the invariants of R21 and R33, the states a run reaches from a reset block of any
build under any stream of inputs, and a run of `k` steps.
-/

namespace Sys2Proof.Machine

/-- A release never precedes the press it ends: `pressedTime` ≤ `releasedTime` where both are recorded (R33 (c)). -/
def ButtonState.ordered (st : ButtonState) : Bool :=
  match st.pressedTime, st.releasedTime with
  | some p, some r => decide (p ≤ r)
  | _, _           => true

/-- The invariants of a present instance, R33 (a), (b), (c), in that order. -/
def ButtonState.consistent (st : ButtonState) : Bool :=
  decide (st.lastDebounceTime = st.pressedTime) && (!st.level || st.pressedTime.isSome) &&
    ((!st.releasedTime.isSome || st.pressedTime.isSome) && (st.level || st.ordered))

/-- A good block: `lastOffset` < `L` (R21), R33 of every present instance, and every absent slot at its reset value (log 5). -/
abbrev Block.Inv (cfg : Config) (b : Block) : Prop :=
  b.lastOffset.toNat < cfg.len ∧
    ∀ s : Fin 10, if present cfg s.val then b.btn[s].consistent = true else b.btn[s] = ButtonState.reset

/-- A good state. It says nothing of the inputs: any stream of them keeps it. -/
abbrev State.Inv (s : State) : Prop := s.block.Inv s.config

/-- The states some run reaches: from a block of any build after reset, under any inputs. -/
inductive Reachable : State → Prop where
  | reset (cfg : Config) (inputs : List HostInput) : Reachable { State.resetWith cfg with inbox := inputs }
  | step (s t : State) (hs : Reachable s) (h : Machine.step s = .next t) : Reachable t

/-- Does an input reset the block: a pulse on the reset input, or a transaction that is an SRST (R133, R170)? -/
def HostInput.resets : HostInput → Bool
  | .reset     => true
  | .command c => match decode c with
    | .srst _ => true
    | .nop _ | .chunk .. | .rdstat _ | .rdbtn _ | .reserved4 _ | .reserved5 _ | .reserved6 _ | .reserved7 _ | .reserved8 _
    | .reserved9 _ | .reservedA _ | .reservedB _ | .reservedC _ | .reservedD _ | .reservedE _ => false

/-- `k` steps from `s` (R50). -/
def runSteps (k : Nat) (s : State) : Host.Outcome State Fault Refusal := Host.Core.run Sys2Proof.core k s

/-- Byte `j` of the chunk read as a ring of `L` bytes. -/
def ringByte (cfg : Config) (d : Lanes) (j : Nat) : Byte := d.toList.getD (j % cfg.len) 0

/-- The signature stands at ring position `p`. -/
abbrev ringHasSig (cfg : Config) (d : Lanes) (p : Nat) : Prop :=
  ringByte cfg d p = 0x02 ∧ ringByte cfg d (p + 1) = 0x04 ∧ ringByte cfg d (p + 2) = 0x03 ∧ ringByte cfg d (p + 3) = 0x04

/-- No present instance has stored a time later than `now`: the host's duty of R157 and R174, as far as the block can see it. -/
def NoTimeRegress (s : State) (now : Time) : Prop :=
  ∀ sel : Fin 10, present s.config sel.val = true → ∀ t : Time,
    (s.block.btn[sel].lastDebounceTime = some t ∨ s.block.btn[sel].pressedTime = some t ∨
      s.block.btn[sel].releasedTime = some t) → t ≤ now

/-- Every reset value of R170, field by field. -/
def AtResetValues (b : Block) : Prop :=
  b.lastOffset = 0 ∧ b.syncOk = false ∧ b.shortRd = false ∧ b.errOp = false ∧ b.errArg = false ∧
    ∀ sel : Fin 10, b.btn[sel].level = false ∧ b.btn[sel].lastDebounceTime = none ∧ b.btn[sel].pressedTime = none ∧
      b.btn[sel].releasedTime = none

/-- The raw bit instance `s` received in a full read, as the response shows it: bit `s` of `BTN`, or `PROF[0]` for prev and `PROF[1]`
for next (R66, R102, R106). -/
def FrameOut.rawBit (r : FrameOut) (s : Nat) : Bool := if s < 8 then r.btn.getLsbD s else r.prof.getLsbD (s - 8)

/-- `SRC` of an event record, `EVT[3:0]` (R67). -/
def Event.src (e : Event) : Nat := (e.evt.extractLsb' 0 4).toNat

/-- `KIND` of an event record, `EVT[4]`: true for a long press (R67). -/
def Event.long (e : Event) : Bool := e.evt.getLsbD 4

end Sys2Proof.Machine
end

