-- ==== Sys2Proof/Certificates/Slice0/Obligations.lean ====
section
/-!
DEFINITION. The statements about the block, for the provers. Every one holds for every build, since the build is part of the
state it quantifies over. A statement about a full read assumes only its length and the host's duty of R157 (`NoTimeRegress`).
-/

open Sys2Proof Sys2Proof.Machine

/-! ### Encoding -/

/-- Decoding what the encoder writes gives every command back, whatever its argument, lanes and time (R60 to R62). -/
def Obligations.EncodedCommandsDecodeToThemselves : Prop :=
  ∀ i : Instr, decode (encode i) = i

/-- The command a transaction decodes to has that transaction's command byte; a CHUNK has its lanes and time as well. -/
def Obligations.DecodedTransactionsEncodeBack : Prop :=
  ∀ c : Command, (encode (decode c)).byte = c.byte ∧ (opField c.byte = 1 → encode (decode c) = c)

/-- R61, the opcode map: each of the sixteen mask and match pairs selects its command, with `ARG` as R62 and R63 take it. The sixteen
match values are all the values of `c & 0xF0`, so every byte is covered exactly once. -/
def Obligations.OpcodeMapSelectsTheCommand : Prop :=
  ∀ c : Command, ∀ arg : BitVec 4, arg = c.byte.extractLsb' 0 4 →
    (c.byte &&& 0xF0 = 0x00 → decode c = .nop arg) ∧
    (c.byte &&& 0xF0 = 0x10 → decode c = .chunk arg c.lanes c.now) ∧
    (c.byte &&& 0xF0 = 0x20 → decode c = .rdstat arg) ∧
    (c.byte &&& 0xF0 = 0x30 → decode c = .rdbtn arg) ∧
    (c.byte &&& 0xF0 = 0x40 → decode c = .reserved4 arg) ∧
    (c.byte &&& 0xF0 = 0x50 → decode c = .reserved5 arg) ∧
    (c.byte &&& 0xF0 = 0x60 → decode c = .reserved6 arg) ∧
    (c.byte &&& 0xF0 = 0x70 → decode c = .reserved7 arg) ∧
    (c.byte &&& 0xF0 = 0x80 → decode c = .reserved8 arg) ∧
    (c.byte &&& 0xF0 = 0x90 → decode c = .reserved9 arg) ∧
    (c.byte &&& 0xF0 = 0xA0 → decode c = .reservedA arg) ∧
    (c.byte &&& 0xF0 = 0xB0 → decode c = .reservedB arg) ∧
    (c.byte &&& 0xF0 = 0xC0 → decode c = .reservedC arg) ∧
    (c.byte &&& 0xF0 = 0xD0 → decode c = .reservedD arg) ∧
    (c.byte &&& 0xF0 = 0xE0 → decode c = .reservedE arg) ∧
    (c.byte &&& 0xF0 = 0xF0 → decode c = .srst arg)

/-- The encoding examples of R74, and one byte of each of the other rows. -/
def Obligations.WrittenOutCommandBytesDecode : Prop :=
  ∀ (d : Lanes) (now : Time),
    decode ⟨0x16, d, now⟩ = .chunk 6 d now ∧ decode ⟨0x18, d, now⟩ = .chunk 8 d now ∧
    decode ⟨0x10, d, now⟩ = .chunk 0 d now ∧ decode ⟨0x39, d, now⟩ = .rdbtn 9 ∧ decode ⟨0x3A, d, now⟩ = .rdbtn 10 ∧
    decode ⟨0x2F, d, now⟩ = .rdstat 0xF ∧ decode ⟨0x55, d, now⟩ = .reserved5 5 ∧ decode ⟨0x07, d, now⟩ = .nop 7 ∧
    decode ⟨0xF3, d, now⟩ = .srst 3 ∧ decode ⟨0xEF, d, now⟩ = .reservedE 0xF ∧ decode ⟨0x4A, d, now⟩ = .reserved4 0xA

/-- R72 and R73: the command byte of every statement form, the lanes and time of a CHUNK, and each pseudo-instruction as its
expansion. Lanes a statement does not list are don't-cares and nothing is said of them. -/
def Obligations.AssemblerWritesTheCommand : Prop :=
  ∀ cfg : Config,
    ((assemble cfg .nop).map (·.byte) = some 0x00 ∧ (assemble cfg .rdstat).map (·.byte) = some 0x20 ∧
      (assemble cfg .srst).map (·.byte) = some 0xF0) ∧
    (∀ n t : Nat, ∀ bytes : List Nat, n ≤ 15 → t < 2 ^ 64 → bytes.length = min n 8 → (∀ b ∈ bytes, b ≤ 255) →
      ∃ c, assemble cfg (.chunk n t bytes) = some c ∧ c.byte = 0x10 ||| BitVec.ofNat 8 n ∧ c.now.toNat = t ∧
        ∀ i, i < bytes.length → (c.lanes.toList.getD i 0).toNat = bytes.getD i 0) ∧
    (∀ sel : Nat, sel ≤ 15 → (assemble cfg (.rdbtn sel)).map (·.byte) = some (0x30 ||| BitVec.ofNat 8 sel)) ∧
    (∀ b : Nat, b ≤ 255 → b / 16 ≠ 1 → (assemble cfg (.cmd b)).map (·.byte) = some (BitVec.ofNat 8 b)) ∧
    (∀ c p t : Nat, cfg.len = 6 → assemble cfg (.frame6 c p t) = assemble cfg (.chunk 6 t [2, 4, 3, 4, c, p])) ∧
    (∀ c p rp rn t : Nat, cfg.len = 8 →
      assemble cfg (.frame8 c p rp rn t) = assemble cfg (.chunk 8 t [2, 4, 3, 4, c, p, rp, rn])) ∧
    assemble cfg .rdbtnPrev = assemble cfg (.rdbtn 8) ∧ assemble cfg .rdbtnNext = assemble cfg (.rdbtn 9) ∧
    assemble cfg .resetPseudo = assemble cfg .srst

/-! ### Steps, reset and the build -/

/-- A step takes the oldest transaction off the port and is the execution of the command it decodes to (R50). -/
def Obligations.StepRunsTheDecodedCommand : Prop :=
  ∀ (s : State) (c : Command) (rest : List HostInput), s.inbox = .command c :: rest →
    Machine.step s = exec (decode c) { s with inbox := rest }

/-- With nothing on the inputs a step changes nothing. The model's choice (log 3). -/
def Obligations.IdlePortChangesNothing : Prop :=
  ∀ s : State, s.inbox = [] → Machine.step s = .next s

/-- R170: a pulse on the reset input and SRST have the same effect on the block, every state element at its reset value, and the
build is not changed. -/
def Obligations.ResetInputAndSrstSetResetValues : Prop :=
  ∀ (s : State) (rest : List HostInput) (arg : BitVec 4), s.inbox = .reset :: rest →
    ∃ t u, Machine.step s = .next t ∧ exec (.srst arg) { s with inbox := rest } = .next u ∧
      t.block = u.block ∧ AtResetValues t.block ∧ t.config = s.config ∧ u.config = s.config

/-- A block of any build starts with the values of 10_state.md section 5; what the inputs and the response hold then is the
model's choice (log 3, log 4). -/
def Obligations.ResetStateHoldsTheResetValues : Prop :=
  ∀ cfg : Config, AtResetValues (State.resetWith cfg).block ∧ (State.resetWith cfg).config = cfg ∧
    State.reset = State.resetWith State.reset.config

/-- R153 and R6 to R10: a block is built exactly from parameters in their ranges, and has them; an interval that is not given is
50 ms or 300 ms in ticks. That a default over 64 bits is out of range is the model's reading (log 9). -/
def Obligations.BuildTakesExactlyTheParametersInRange : Prop :=
  ∀ p : Params,
    ((Config.build p).isSome = true ↔
      (p.frameLen = 6 ∨ p.frameLen = 8) ∧ p.nInputs ≤ 8 ∧ 0 < p.ticksPerMs ∧
        p.debounceTicks.getD (50 * p.ticksPerMs) < 2 ^ 64 ∧ p.longTicks.getD (300 * p.ticksPerMs) < 2 ^ 64) ∧
    ∀ cfg, Config.build p = some cfg →
      cfg.len = p.frameLen ∧ cfg.nInputs.val = p.nInputs ∧ cfg.ticksPerMs = p.ticksPerMs ∧
        cfg.debounceTicks.toNat = p.debounceTicks.getD (50 * p.ticksPerMs) ∧
        cfg.longTicks.toNat = p.longTicks.getD (300 * p.ticksPerMs) ∧ cfg.profBitMode = p.profBitMode

/-- R18: which selectors name a present instance. -/
def Obligations.SelectorsArePresentByTheBuild : Prop :=
  ∀ (cfg : Config) (s : Nat), present cfg s = true ↔
    (s ≤ 7 ∧ s < cfg.nInputs.val) ∨ ((s = 8 ∨ s = 9) ∧ cfg.len = 8)

/-! ### NOP, RDSTAT, RDBTN, SRST and the reserved opcodes -/

/-- R130: NOP returns an ACK and leaves the state as it was. -/
def Obligations.NopOnlyAcknowledges : Prop :=
  (∀ c : Command, c.byte &&& 0xF0 = 0x00 → ∃ arg, decode c = .nop arg) ∧
    ∀ (arg : BitVec 4) (s : State), exec (.nop arg) s = .next { s with response := some .ack }

/-- R131: RDSTAT returns the status word, field by field, and writes nothing. -/
def Obligations.RdstatReturnsTheStatusWord : Prop :=
  (∀ c : Command, c.byte &&& 0xF0 = 0x20 → ∃ arg, decode c = .rdstat arg) ∧
    ∀ (arg : BitVec 4) (s : State), ∃ w : BitVec 16,
      exec (.rdstat arg) s = .next { s with response := some (.status w) } ∧
        w.extractLsb' 0 3 = s.block.lastOffset ∧ w.getLsbD 3 = s.block.syncOk ∧ w.getLsbD 4 = s.block.shortRd ∧
        w.getLsbD 5 = s.block.errOp ∧ w.getLsbD 6 = s.block.errArg ∧ w.getLsbD 7 = decide (s.config.len = 8) ∧
        (w.extractLsb' 8 4).toNat = s.config.nInputs.val ∧ w.extractLsb' 12 4 = 0

/-- R132 and R69: RDBTN on a present instance, an absent one and a selector that names none. -/
def Obligations.RdbtnReadsOneButton : Prop :=
  (∀ c : Command, c.byte &&& 0xF0 = 0x30 → decode c = .rdbtn (c.byte.extractLsb' 0 4)) ∧
    ∀ (sel : BitVec 4) (s : State),
      (10 ≤ sel.toNat → exec (.rdbtn sel) s =
        .next { s with block := { s.block with errArg := true }, response := some (.btnRec ⟨0, 0, 0, 0⟩) }) ∧
      (sel.toNat < 10 → present s.config sel.toNat = false →
        exec (.rdbtn sel) s = .next { s with response := some (.btnRec ⟨0, 0, 0, 0⟩) }) ∧
      (∀ h : sel.toNat < 10, present s.config sel.toNat = true → ∃ r : BtnRec,
        exec (.rdbtn sel) s = .next { s with response := some (.btnRec r) } ∧
          r.bf.getLsbD 0 = true ∧ r.bf.getLsbD 1 = s.block.btn[sel.toNat].level ∧
          r.bf.getLsbD 2 = s.block.btn[sel.toNat].lastDebounceTime.isSome ∧
          r.bf.getLsbD 3 = s.block.btn[sel.toNat].pressedTime.isSome ∧
          r.bf.getLsbD 4 = s.block.btn[sel.toNat].releasedTime.isSome ∧ r.bf.extractLsb' 5 3 = 0 ∧
          r.ldt = s.block.btn[sel.toNat].lastDebounceTime.getD 0 ∧ r.pt = s.block.btn[sel.toNat].pressedTime.getD 0 ∧
          r.rt = s.block.btn[sel.toNat].releasedTime.getD 0)

/-- R133: SRST sets every state element to its reset value and returns an ACK, so a press held then gives no event. -/
def Obligations.SrstResetsTheBlock : Prop :=
  (∀ c : Command, c.byte &&& 0xF0 = 0xF0 → ∃ arg, decode c = .srst arg) ∧
    ∀ (arg : BitVec 4) (s : State), ∃ t, exec (.srst arg) s = .next t ∧ AtResetValues t.block ∧
      t.response = some .ack ∧ t.config = s.config ∧ t.inbox = s.inbox

/-- R134 and R65: each of the eleven reserved opcodes sets `ERR_OP`, changes nothing else and returns an ACK. -/
def Obligations.ReservedOpcodesOnlySetErrOp : Prop :=
  ∀ arg : BitVec 4, ∀ reserved : List Instr, reserved =
      [.reserved4 arg, .reserved5 arg, .reserved6 arg, .reserved7 arg, .reserved8 arg, .reserved9 arg, .reservedA arg,
        .reservedB arg, .reservedC arg, .reservedD arg, .reservedE arg] →
    (∀ c : Command, c.byte.extractLsb' 0 4 = arg →
      (4 ≤ (c.byte.extractLsb' 4 4).toNat ∧ (c.byte.extractLsb' 4 4).toNat ≤ 14 ↔ decode c ∈ reserved)) ∧
    ∀ i ∈ reserved, ∀ s : State,
      exec i s = .next { s with block := { s.block with errOp := true }, response := some .ack }

/-- R64: all sixteen arguments of NOP, RDSTAT and SRST execute as 0 does, and none sets an error flag. -/
def Obligations.HintArgumentsAreIgnored : Prop :=
  ∀ (arg : BitVec 4) (s : State),
    (exec (.nop arg) s = exec (.nop 0) s ∧ exec (.rdstat arg) s = exec (.rdstat 0) s ∧
      exec (.srst arg) s = exec (.srst 0) s) ∧
    ∀ i ∈ [Instr.nop arg, Instr.rdstat arg, Instr.srst arg], ∃ t, exec i s = .next t ∧
      (t.block.errOp = true → s.block.errOp = true) ∧ (t.block.errArg = true → s.block.errArg = true)

/-- The idempotent commands of R48: RDSTAT, RDBTN and SRST done twice end as done once, and the reads of a named selector change
nothing of the block. -/
def Obligations.ReadsAndSoftResetAreIdempotent : Prop :=
  ∀ (arg : BitVec 4) (s : State),
    (∃ t, exec (.rdstat arg) s = .next t ∧ t.block = s.block ∧ exec (.rdstat arg) t = .next t) ∧
    (∃ t, exec (.rdbtn arg) s = .next t ∧ (arg.toNat < 10 → t.block = s.block) ∧ exec (.rdbtn arg) t = .next t) ∧
    (∃ t, exec (.srst arg) s = .next t ∧ exec (.srst arg) t = .next t)

/-! ### Rules over every command -/

/-- R17, R157, R135 and R156: a command completes with one response, or it is refused, and it is refused exactly when it is a full
read whose `now` is below a stored time of a present instance. -/
def Obligations.OnlyATimeRegressIsRefused : Prop :=
  ∀ (i : Instr) (s : State),
    ((∃ t r, exec i s = .next t ∧ t.response = some r) ∨ exec i s = .refused .timeRegress) ∧
    (exec i s = .refused .timeRegress ↔
      ∃ n d now, i = .chunk n d now ∧ n.toNat = s.config.len ∧ ¬NoTimeRegress s now)

/-- The response column of the opcode table: FRAME_OUT for CHUNK, STATUS, BTNREC, and ACK for the rest. An event leaves the block in
a FRAME_OUT and nowhere else (R155). -/
def Obligations.EachCommandReturnsItsRecord : Prop :=
  ∀ (i : Instr) (s t : State), exec i s = .next t →
    match i with
    | .chunk .. => ∃ r, t.response = some (.frameOut r)
    | .rdstat _ => ∃ w, t.response = some (.status w)
    | .rdbtn _  => ∃ r, t.response = some (.btnRec r)
    | .nop _ | .srst _ | .reserved4 _ | .reserved5 _ | .reserved6 _ | .reserved7 _ | .reserved8 _ | .reserved9 _
    | .reservedA _ | .reservedB _ | .reservedC _ | .reservedD _ | .reservedE _ => t.response = some .ack

/-- R24: when each sticky error flag becomes 1, that only a reset clears it, its reset value, and where RDSTAT reads it. -/
def Obligations.ErrorFlagsRecordTheirConditions : Prop :=
  (∀ (i : Instr) (s t : State), exec i s = .next t →
    ((∃ arg, i = .srst arg) → t.block.errOp = false ∧ t.block.errArg = false) ∧
    ((∀ arg, i ≠ .srst arg) →
      (t.block.errOp = true ↔ s.block.errOp = true ∨
        (4 ≤ (opField (encode i).byte).toNat ∧ (opField (encode i).byte).toNat ≤ 14)) ∧
      (t.block.errArg = true ↔ s.block.errArg = true ∨
        (∃ n d now, i = .chunk n d now ∧ s.config.len < n.toNat) ∨ ∃ sel, i = .rdbtn sel ∧ 10 ≤ sel.toNat))) ∧
  (∀ cfg, (State.resetWith cfg).block.errOp = false ∧ (State.resetWith cfg).block.errArg = false) ∧
  ∀ (arg : BitVec 4) (s : State), ∃ w : BitVec 16, exec (.rdstat arg) s = .next { s with response := some (.status w) } ∧
    w.getLsbD 5 = s.block.errOp ∧ w.getLsbD 6 = s.block.errArg

/-- R22 and R23: what every command leaves in `SYNC_OK` and `SHORT_RD`, their reset values, and where RDSTAT reads them. -/
def Obligations.SyncStatusFollowsTheLastRead : Prop :=
  (∀ (i : Instr) (s t : State), exec i s = .next t →
    (∀ n d now, i = .chunk n d now →
      (n.toNat = s.config.len → t.block.shortRd = false ∧
        (t.block.syncOk = true ↔ ∃ p < s.config.len, ringHasSig s.config d p)) ∧
      (n.toNat < s.config.len → t.block.shortRd = true ∧ t.block.syncOk = false) ∧
      (s.config.len < n.toNat → t.block.shortRd = s.block.shortRd ∧ t.block.syncOk = s.block.syncOk)) ∧
    ((∃ arg, i = .srst arg) → t.block.shortRd = false ∧ t.block.syncOk = false) ∧
    ((∀ n d now, i ≠ .chunk n d now) → (∀ arg, i ≠ .srst arg) →
      t.block.shortRd = s.block.shortRd ∧ t.block.syncOk = s.block.syncOk)) ∧
  (∀ cfg, (State.resetWith cfg).block.shortRd = false ∧ (State.resetWith cfg).block.syncOk = false) ∧
  ∀ (arg : BitVec 4) (s : State), ∃ w : BitVec 16, exec (.rdstat arg) s = .next { s with response := some (.status w) } ∧
    w.getLsbD 3 = s.block.syncOk ∧ w.getLsbD 4 = s.block.shortRd

/-- R21 and R29 to R32: only a full read and SRST change `lastOffset` or any field of any instance, and a full read changes
`lastOffset` only to a ring position where its chunk has the signature. -/
def Obligations.OnlyFullReadsAndResetMoveTheMachines : Prop :=
  ∀ (i : Instr) (s t : State), exec i s = .next t → (∀ arg, i ≠ .srst arg) →
    ((∀ n d now, i = .chunk n d now → n.toNat ≠ s.config.len) →
      t.block.lastOffset = s.block.lastOffset ∧ t.block.btn = s.block.btn) ∧
    (t.block.lastOffset ≠ s.block.lastOffset → ∃ n d now, i = .chunk n d now ∧ n.toNat = s.config.len ∧
      t.block.lastOffset.toNat < s.config.len ∧ ringHasSig s.config d t.block.lastOffset.toNat)

/-- No command changes the build or what is waiting on the inputs (R35, R171). -/
def Obligations.CommandsKeepTheBuildAndTheInputs : Prop :=
  ∀ (i : Instr) (s t : State), exec i s = .next t → t.config = s.config ∧ t.inbox = s.inbox

/-! ### CHUNK: length classification and the frame of a full read -/

/-- R81: a count above `L` sets `ERR_ARG`, changes nothing else and returns an empty FRAME_OUT with `lastOffset`. -/
def Obligations.OverlongReadIsAnArgumentError : Prop :=
  ∀ (n : BitVec 4) (d : Lanes) (now : Time) (s : State), s.config.len < n.toNat →
    ∃ f : Byte, exec (.chunk n d now) s =
        .next { s with block := { s.block with errArg := true }, response := some (.frameOut ⟨f, 0, 0, 0, []⟩) } ∧
      f.getLsbD 0 = false ∧ f.getLsbD 1 = false ∧ f.extractLsb' 2 3 = s.block.lastOffset ∧ f.extractLsb' 5 3 = 0

/-- R82: a short read, none at all included, keeps the offset and every instance, whatever its bytes and time. -/
def Obligations.ShortReadKeepsTheOffset : Prop :=
  ∀ (n : BitVec 4) (d : Lanes) (now : Time) (s : State), n.toNat < s.config.len →
    ∃ f : Byte, exec (.chunk n d now) s =
        .next { s with block := { s.block with syncOk := false, shortRd := true },
                       response := some (.frameOut ⟨f, 0, 0, 0, []⟩) } ∧
      f.getLsbD 0 = false ∧ f.getLsbD 1 = false ∧ f.extractLsb' 2 3 = s.block.lastOffset ∧ f.extractLsb' 5 3 = 0

/-- The frame of a full read: it completes, its FRAME_OUT is marked valid and says what the block now holds, and the sticky flags,
the build and the inputs stay (R66, R80). -/
def Obligations.FullReadCompletesAndKeepsTheRest : Prop :=
  ∀ (n : BitVec 4) (d : Lanes) (now : Time) (s : State), n.toNat = s.config.len → NoTimeRegress s now →
    ∃ t r, exec (.chunk n d now) s = .next t ∧ t.response = some (.frameOut r) ∧
      r.flags.getLsbD 0 = true ∧ r.flags.getLsbD 1 = t.block.syncOk ∧ r.flags.extractLsb' 2 3 = t.block.lastOffset ∧
      r.flags.extractLsb' 5 3 = 0 ∧ t.block.errOp = s.block.errOp ∧ t.block.errArg = s.block.errArg ∧
      t.config = s.config ∧ t.inbox = s.inbox ∧
      ∀ sel : Fin 10, present s.config sel.val = false → t.block.btn[sel] = s.block.btn[sel]

/-- R62: a lane at or above `n` is not read, and neither is `now` unless the read is full (R81, R82, R156). -/
def Obligations.UnusedChunkOperandsAreIgnored : Prop :=
  ∀ (n : BitVec 4) (d d' : Lanes) (now now' : Time) (s : State),
    (∀ k, k < min n.toNat 8 → d.toList.getD k 0 = d'.toList.getD k 0) → (n.toNat = s.config.len → now = now') →
    exec (.chunk n d now) s = exec (.chunk n d' now') s

/-! ### CHUNK: the synchronizer and the decoder -/

/-- R84 and R85: the least ring position with the signature is the new offset; with none the offset stays. -/
def Obligations.OffsetIsTheFirstSignatureOrStale : Prop :=
  ∀ (n : BitVec 4) (d : Lanes) (now : Time) (s : State), n.toNat = s.config.len → NoTimeRegress s now →
    ∃ t, exec (.chunk n d now) s = .next t ∧ t.block.shortRd = false ∧
      (∀ p < s.config.len, ringHasSig s.config d p → (∀ q < p, ¬ringHasSig s.config d q) →
        t.block.lastOffset.toNat = p ∧ t.block.syncOk = true) ∧
      ((∀ p < s.config.len, ¬ringHasSig s.config d p) →
        t.block.lastOffset = s.block.lastOffset ∧ t.block.syncOk = false)

/-- R86, R101, R103 to R107: what a full read decodes is the ring bytes behind the offset it leaves, new or stale: the control byte
bit for bit, the pot byte unclamped, and for `L` = 8 the two profile bytes inverted. -/
def Obligations.PayloadIsDecodedBehindTheOffset : Prop :=
  ∀ (n : BitVec 4) (d : Lanes) (now : Time) (s : State), n.toNat = s.config.len → NoTimeRegress s now →
    ∃ t r, exec (.chunk n d now) s = .next t ∧ t.response = some (.frameOut r) ∧
      r.btn = ringByte s.config d (t.block.lastOffset.toNat + 4) ∧
      r.pot = ringByte s.config d (t.block.lastOffset.toNat + 5) ∧
      (s.config.len = 6 → r.prof = 0) ∧
      (s.config.len = 8 → r.prof.extractLsb' 2 6 = 0 ∧ ∀ k < 2,
        (s.config.profBitMode = .lsb →
          r.prof.getLsbD k = !(ringByte s.config d (t.block.lastOffset.toNat + 6 + k)).getLsbD 0) ∧
        (s.config.profBitMode = .nonzero →
          r.prof.getLsbD k = decide (ringByte s.config d (t.block.lastOffset.toNat + 6 + k) = 0)))

/-- R101 and R108: the reversed list has bit `k` of the control byte at index `k`, packs back to the byte, and reversed again is the
list as transmitted. -/
def Obligations.BitOrderIsReversedAndRestored : Prop :=
  ∀ c : Byte, (∀ k < 8, (buttonBits c)[k]? = some (c.getLsbD k)) ∧ (buttonBits c).length = 8 ∧
    (buttonBits c).reverse = byteToBits c ∧ packBits (buttonBits c) = c

/-- R88, which the spec marks as its own inference from R12, R84 and R86: a full read of any rotation of a
frame finds the signature and cuts out exactly the frame's payload; the offset is the true one, except that a frame whose payload
repeats the signature reports the smaller of two. -/
def Obligations.RotatedFrameYieldsItsPayload : Prop :=
  ∀ (n : BitVec 4) (d : Lanes) (now : Time) (s : State) (frame : Nat → Byte) (r p : Nat),
    n.toNat = s.config.len → NoTimeRegress s now →
    frame 0 = 0x02 → frame 1 = 0x04 → frame 2 = 0x03 → frame 3 = 0x04 →
    r < s.config.len → p = (s.config.len - r) % s.config.len →
    (∀ i < s.config.len, d.toList.getD i 0 = frame ((i + r) % s.config.len)) →
    ∃ t, exec (.chunk n d now) s = .next t ∧ t.block.syncOk = true ∧
      extractPayload s.config (chunkBytes s.config d) t.block.lastOffset.toNat =
        (List.range (s.config.len - 4)).map (fun k => frame (4 + k)) ∧
      (¬(s.config.len = 8 ∧ frame 4 = 0x02 ∧ frame 5 = 0x04 ∧ frame 6 = 0x03 ∧ frame 7 = 0x04) →
        t.block.lastOffset.toNat = p) ∧
      (s.config.len = 8 ∧ frame 4 = 0x02 ∧ frame 5 = 0x04 ∧ frame 6 = 0x03 ∧ frame 7 = 0x04 →
        t.block.lastOffset.toNat = min p ((p + 4) % 8))

/-- R177, the spec's own inference from R84, R86 and R88: a full read that spans two consecutive frames finds the
signature, and takes each payload byte from the newer frame when the read began behind it and from the older one otherwise. The
offset is the true one unless the four payload bytes repeat the signature. -/
def Obligations.WindowOverTwoFramesMixesOnlyTheirFields : Prop :=
  ∀ (n : BitVec 4) (d : Lanes) (now : Time) (s : State) (older newer : Nat → Byte) (r : Nat),
    n.toNat = s.config.len → NoTimeRegress s now →
    older 0 = 0x02 → older 1 = 0x04 → older 2 = 0x03 → older 3 = 0x04 →
    newer 0 = 0x02 → newer 1 = 0x04 → newer 2 = 0x03 → newer 3 = 0x04 → r < s.config.len →
    (∀ i < s.config.len,
      d.toList.getD i 0 = if r + i < s.config.len then older (r + i) else newer (r + i - s.config.len)) →
    ∃ t, exec (.chunk n d now) s = .next t ∧ t.block.syncOk = true ∧
      extractPayload s.config (chunkBytes s.config d) t.block.lastOffset.toNat =
        (List.range (s.config.len - 4)).map (fun k => if 4 + k < r then newer (4 + k) else older (4 + k)) ∧
      (extractPayload s.config (chunkBytes s.config d) t.block.lastOffset.toNat ≠ [0x02, 0x04, 0x03, 0x04] →
        t.block.lastOffset.toNat = (s.config.len - r) % s.config.len)

/-! ### CHUNK: the debounce bank -/

/-- R110 to R114 and R125: the transition table of every present instance, with the raw bit the response shows. -/
def Obligations.InstancesFollowTheTransitionTable : Prop :=
  ∀ (n : BitVec 4) (d : Lanes) (now : Time) (s : State), n.toNat = s.config.len → NoTimeRegress s now →
    ∃ t r, exec (.chunk n d now) s = .next t ∧ t.response = some (.frameOut r) ∧
      ∀ sel : Fin 10, present s.config sel.val = true →
        (s.block.btn[sel].level = r.rawBit sel.val → t.block.btn[sel] = s.block.btn[sel]) ∧
        (s.block.btn[sel].level = false → r.rawBit sel.val = true → s.block.btn[sel].lastDebounceTime = none →
          t.block.btn[sel] = ⟨true, some now, some now, s.block.btn[sel].releasedTime⟩) ∧
        (∀ e : Time, s.block.btn[sel].level = false → r.rawBit sel.val = true →
          s.block.btn[sel].lastDebounceTime = some e →
          (e.toNat + s.config.debounceTicks.toNat ≤ now.toNat →
            t.block.btn[sel] = ⟨true, some now, some now, s.block.btn[sel].releasedTime⟩) ∧
          (now.toNat < e.toNat + s.config.debounceTicks.toNat → t.block.btn[sel] = s.block.btn[sel])) ∧
        (s.block.btn[sel].level = true → r.rawBit sel.val = false →
          t.block.btn[sel] = ⟨false, s.block.btn[sel].lastDebounceTime, s.block.btn[sel].pressedTime, some now⟩) ∧
        ((∃ e ∈ r.events, e.src = sel.val) ↔ s.block.btn[sel].level = true ∧ r.rawBit sel.val = false)

/-- R115 to R117: a release reports its selector, its held duration and its class, LONG from `LONG_TICKS` on. -/
def Obligations.ReleasesReportDurationAndClass : Prop :=
  ∀ (n : BitVec 4) (d : Lanes) (now : Time) (s : State), n.toNat = s.config.len → NoTimeRegress s now →
    ∃ t r, exec (.chunk n d now) s = .next t ∧ t.response = some (.frameOut r) ∧
      ∀ sel : Fin 10, present s.config sel.val = true → s.block.btn[sel].level = true → r.rawBit sel.val = false →
        ∀ p : Time, s.block.btn[sel].pressedTime = some p →
          ∃ e ∈ r.events, e.src = sel.val ∧ p.toNat + e.dur.toNat = now.toNat ∧
            (e.long = false ↔ e.dur.toNat < s.config.longTicks.toNat) ∧ e.evt.extractLsb' 5 3 = 0

/-- R118, R119 and R121: the events of one CHUNK are those of the released present instances, once each, in ascending order of
selector, at most `N` of them and two more when `L` = 8. -/
def Obligations.EventsComeOnceEachInSelectorOrder : Prop :=
  ∀ (n : BitVec 4) (d : Lanes) (now : Time) (s : State), n.toNat = s.config.len → NoTimeRegress s now →
    ∃ t r, exec (.chunk n d now) s = .next t ∧ t.response = some (.frameOut r) ∧
      r.events.map Event.src = (List.range 10).filter (fun k =>
        present s.config k && (s.block.btn.toList.getD k ButtonState.reset).level && !r.rawBit k) ∧
      r.events.length ≤ s.config.nInputs.val + (if s.config.len = 8 then 2 else 0)

/-- R126: lanes do not mix. Two full reads of one build that give an instance in the same state the same bit at the same time leave
it in the same state with the same event, whatever else differs. -/
def Obligations.LanesAreIndependent : Prop :=
  ∀ (n n' : BitVec 4) (d d' : Lanes) (now : Time) (s s' t t' : State) (r r' : FrameOut) (sel : Fin 10),
    s'.config = s.config → n.toNat = s.config.len → n'.toNat = s.config.len →
    exec (.chunk n d now) s = .next t → exec (.chunk n' d' now) s' = .next t' →
    t.response = some (.frameOut r) → t'.response = some (.frameOut r') →
    s'.block.btn[sel] = s.block.btn[sel] → r'.rawBit sel.val = r.rawBit sel.val →
    t'.block.btn[sel] = t.block.btn[sel] ∧
      r'.events.filter (fun e => e.src == sel.val) = r.events.filter (fun e => e.src == sel.val)

/-- R123: while a bounced press is held, every sample before the debounce interval has passed rejects it again; the first sample
after it accepts it and times the press from there. -/
def Obligations.HeldBounceIsAcceptedAtTheFirstLateSample : Prop :=
  ∀ (cfg : Config) (sel : Nat) (st : ButtonState) (pressed : Time) (early : List Time) (late : Time),
    st.level = false → st.lastDebounceTime = some pressed →
    (∀ t ∈ early, pressed ≤ t ∧ t.toNat < pressed.toNat + cfg.debounceTicks.toNat) →
    pressed.toNat + cfg.debounceTicks.toNat ≤ late.toNat →
    early.foldl (fun x t => (stepButton cfg sel x true t).1) st = st ∧
      stepButton cfg sel st true late = (⟨true, some late, some late, st.releasedTime⟩, none)

/-! ### Runs and invariants -/

/-- R33 and R21 hold after reset, of every build. -/
def Obligations.ResetStateIsGood : Prop :=
  ∀ cfg : Config, (State.resetWith cfg).Inv

/-- R33 and R21, and the model's own clause that absent slots keep their reset value (log 5): every step from a good state, with any
inputs waiting, ends in a good state. -/
def Obligations.EveryStepKeepsAGoodState : Prop :=
  ∀ s t : State, s.Inv → Machine.step s = .next t → t.Inv

/-- R116 over runs: in every state some run reaches, whatever the host sends, each event a CHUNK reports is measured: its instance had
recorded a press, the press is not later than `now`, and the duration is the difference. -/
def Obligations.ReachedEventsAreMeasuredFromARecordedPress : Prop :=
  ∀ (s t : State) (n : BitVec 4) (d : Lanes) (now : Time) (r : FrameOut),
    Reachable s → exec (.chunk n d now) s = .next t → t.response = some (.frameOut r) →
    ∀ e ∈ r.events, ∃ (sel : Fin 10) (p : Time), e.src = sel.val ∧ present s.config sel.val = true ∧
      s.block.btn[sel].level = true ∧ s.block.btn[sel].pressedTime = some p ∧ p.toNat + e.dur.toNat = now.toNat ∧
      t.block.btn[sel].level = false ∧ t.block.btn[sel].releasedTime = some now

/-- R111 over runs: along any run without a reset, from any state, the recorded press time (`lastDebounceTime`) of a button that has
one is the same at the end, or at least `DEBOUNCE_TICKS` later. Times alone are compared: that no second press is accepted at the
same tick when `DEBOUNCE_TICKS` is above 0 is said by InstancesFollowTheTransitionTable. -/
def Obligations.AcceptedPressesAreSpacedAlongRuns : Prop :=
  ∀ (k : Nat) (s t : State) (sel : Fin 10) (a : Time),
    present s.config sel.val = true → (∀ x ∈ s.inbox, x.resets = false) → runSteps k s = .next t →
    s.block.btn[sel].lastDebounceTime = some a →
    ∃ b, t.block.btn[sel].lastDebounceTime = some b ∧
      (b = a ∨ a.toNat + s.config.debounceTicks.toNat ≤ b.toNat)
end

