-- ==== Sys2Proof/Laws/State.lean ====
section
/-!
SUPPORT. One lemma per field per update, so that no later proof unfolds a record update.
-/

namespace Sys2Proof.Machine

variable (b : Block) (s : State) (st : ButtonState) (found : Bool) (now : Time)

/-! ### Flags and status bits -/

@[simp] theorem flagErrOp_errOp : (flagErrOp b).errOp = true := rfl
@[simp] theorem flagErrOp_errArg : (flagErrOp b).errArg = b.errArg := rfl
@[simp] theorem flagErrOp_lastOffset : (flagErrOp b).lastOffset = b.lastOffset := rfl
@[simp] theorem flagErrOp_syncOk : (flagErrOp b).syncOk = b.syncOk := rfl
@[simp] theorem flagErrOp_shortRd : (flagErrOp b).shortRd = b.shortRd := rfl
@[simp] theorem flagErrOp_btn : (flagErrOp b).btn = b.btn := rfl

@[simp] theorem flagErrArg_errOp : (flagErrArg b).errOp = b.errOp := rfl
@[simp] theorem flagErrArg_errArg : (flagErrArg b).errArg = true := rfl
@[simp] theorem flagErrArg_lastOffset : (flagErrArg b).lastOffset = b.lastOffset := rfl
@[simp] theorem flagErrArg_syncOk : (flagErrArg b).syncOk = b.syncOk := rfl
@[simp] theorem flagErrArg_shortRd : (flagErrArg b).shortRd = b.shortRd := rfl
@[simp] theorem flagErrArg_btn : (flagErrArg b).btn = b.btn := rfl

@[simp] theorem markShortRead_errOp : (markShortRead b).errOp = b.errOp := rfl
@[simp] theorem markShortRead_errArg : (markShortRead b).errArg = b.errArg := rfl
@[simp] theorem markShortRead_lastOffset : (markShortRead b).lastOffset = b.lastOffset := rfl
@[simp] theorem markShortRead_syncOk : (markShortRead b).syncOk = false := rfl
@[simp] theorem markShortRead_shortRd : (markShortRead b).shortRd = true := rfl
@[simp] theorem markShortRead_btn : (markShortRead b).btn = b.btn := rfl

@[simp] theorem markFullRead_errOp : (markFullRead found b).errOp = b.errOp := rfl
@[simp] theorem markFullRead_errArg : (markFullRead found b).errArg = b.errArg := rfl
@[simp] theorem markFullRead_lastOffset : (markFullRead found b).lastOffset = b.lastOffset := rfl
@[simp] theorem markFullRead_syncOk : (markFullRead found b).syncOk = found := rfl
@[simp] theorem markFullRead_shortRd : (markFullRead found b).shortRd = false := rfl
@[simp] theorem markFullRead_btn : (markFullRead found b).btn = b.btn := rfl

/-! ### Reset -/

@[simp] theorem resetState_eq : resetState b = Block.reset := rfl
@[simp] theorem reset_lastOffset : Block.reset.lastOffset = 0 := rfl
@[simp] theorem reset_syncOk : Block.reset.syncOk = false := rfl
@[simp] theorem reset_shortRd : Block.reset.shortRd = false := rfl
@[simp] theorem reset_errOp : Block.reset.errOp = false := rfl
@[simp] theorem reset_errArg : Block.reset.errArg = false := rfl

@[simp] theorem hardwareReset_config : (hardwareReset s).config = s.config := rfl
@[simp] theorem hardwareReset_block : (hardwareReset s).block = Block.reset := rfl
@[simp] theorem hardwareReset_inbox : (hardwareReset s).inbox = s.inbox := rfl
@[simp] theorem hardwareReset_response : (hardwareReset s).response = none := rfl

theorem readButton_eq (sel : Fin 10) : readButton b sel = b.btn[sel] := rfl

theorem readButton_reset (sel : Fin 10) : readButton Block.reset sel = ButtonState.reset := by
  simp [readButton, Block.reset]

/-! ### Button records -/

@[simp] theorem acceptPress_level : (acceptPress st now).level = true := rfl
@[simp] theorem acceptPress_lastDebounceTime : (acceptPress st now).lastDebounceTime = some now := rfl
@[simp] theorem acceptPress_pressedTime : (acceptPress st now).pressedTime = some now := rfl
@[simp] theorem acceptPress_releasedTime : (acceptPress st now).releasedTime = st.releasedTime := rfl

@[simp] theorem acceptRelease_level : (acceptRelease st now).level = false := rfl
@[simp] theorem acceptRelease_lastDebounceTime : (acceptRelease st now).lastDebounceTime = st.lastDebounceTime := rfl
@[simp] theorem acceptRelease_pressedTime : (acceptRelease st now).pressedTime = st.pressedTime := rfl
@[simp] theorem acceptRelease_releasedTime : (acceptRelease st now).releasedTime = some now := rfl

/-! ### A completed command -/

/-- Everything `complete` can do: it always answers a next state, the same but for the block and the response. -/
theorem complete_eq_next_iff {b : Block} {r : Response} {s t : State} :
    complete b r s = .next t ↔ t = { s with block := b, response := some r } := by
  simp only [complete, Host.Outcome.next.injEq]
  exact eq_comm

theorem complete_ne_refused {b : Block} {r : Response} {s : State} {why : Refusal} :
    complete b r s ≠ .refused why := by
  simp [complete]

/-- Presenting a table word changes the inputs only. -/
theorem withFetchWord_inbox (nbits w : Nat) :
    (s.withFetchWord nbits w).inbox = .command (commandOfTableWord nbits w) :: s.inbox := rfl

end Sys2Proof.Machine
end

