-- ==== Sys2Proof/Laws/Ops.lean ====
section
/-!
SUPPORT. What each shared operation can do: the selectors, the time precondition, the next input, and the outcomes of CHUNK.
-/

namespace Sys2Proof.Machine

/-! ### Selectors -/

theorem mem_presentSelectors {cfg : Config} {s : Fin 10} : s ∈ presentSelectors cfg ↔ present cfg s.val = true := by
  simp [presentSelectors]

theorem presentSelectors_nodup (cfg : Config) : (presentSelectors cfg).Nodup :=
  (List.nodup_finRange 10).filter _

/-- The bank step visits the selectors in ascending order (R119). -/
theorem presentSelectors_sorted (cfg : Config) : (presentSelectors cfg).Pairwise (· < ·) :=
  (List.pairwise_lt_finRange 10).filter _

theorem len_eq_six_or_eight (cfg : Config) : cfg.len = 6 ∨ cfg.len = 8 := by
  cases h : cfg.frameLen <;> simp [Config.len, FrameLen.bytes, h]

theorem len_le_eight (cfg : Config) : cfg.len ≤ 8 := by
  rcases len_eq_six_or_eight cfg with h | h <;> omega

theorem len_pos (cfg : Config) : 0 < cfg.len := by
  rcases len_eq_six_or_eight cfg with h | h <;> omega

theorem len_eq_eight_iff (cfg : Config) : cfg.len = 8 ↔ cfg.frameLen = .eight := by
  cases h : cfg.frameLen <;> simp [Config.len, FrameLen.bytes, h]

/-! ### The time precondition -/

theorem mem_storedTimes {st : ButtonState} {t : Time} :
    t ∈ storedTimes st ↔ st.lastDebounceTime = some t ∨ st.pressedTime = some t ∨ st.releasedTime = some t := by
  simp [storedTimes]

theorem mem_allStoredTimes {cfg : Config} {b : Block} {t : Time} :
    t ∈ allStoredTimes cfg b ↔ ∃ s : Fin 10, present cfg s.val = true ∧ t ∈ storedTimes (readButton b s) := by
  simp [allStoredTimes, mem_presentSelectors]

/-- Folding `laterTime` gives the largest of the times seen. -/
theorem foldl_laterTime (ts : List Time) (best : Option Time) :
    (∀ t, ts.foldl laterTime best = some t → (t ∈ ts ∨ best = some t) ∧ (∀ u ∈ ts, u ≤ t) ∧ ∀ m, best = some m → m ≤ t) ∧
      (ts.foldl laterTime best = none → ts = [] ∧ best = none) := by
  induction ts generalizing best with
  | nil =>
    refine ⟨fun t h => ?_, fun h => ⟨rfl, h⟩⟩
    simp only [List.foldl_nil] at h
    refine ⟨.inr h, by simp, fun m hm => ?_⟩
    rw [h, Option.some.injEq] at hm
    exact hm ▸ BitVec.le_refl _
  | cons x xs ih =>
    obtain ⟨hsome, hnone⟩ := ih (laterTime best x)
    refine ⟨fun t h => ?_, fun h => ?_⟩
    · obtain ⟨hmem, hle, hbest⟩ := hsome t h
      cases best with
      | none =>
        refine ⟨?_, ?_, by simp⟩
        · rcases hmem with hm | hm
          · exact .inl (List.mem_cons_of_mem _ hm)
          · simp only [laterTime, Option.some.injEq] at hm
            exact .inl (hm ▸ List.mem_cons_self)
        · intro u hu
          rcases List.mem_cons.1 hu with rfl | hu
          · exact hbest u rfl
          · exact hle u hu
      | some m =>
        simp only [laterTime] at hmem hbest
        by_cases hlt : m < x
        · rw [if_pos hlt] at hmem hbest
          refine ⟨?_, ?_, ?_⟩
          · rcases hmem with hm | hm
            · exact .inl (List.mem_cons_of_mem _ hm)
            · exact .inl (Option.some.inj hm ▸ List.mem_cons_self)
          · intro u hu
            rcases List.mem_cons.1 hu with rfl | hu
            · exact hbest u rfl
            · exact hle u hu
          · intro m' hm'
            obtain rfl := Option.some.inj hm'
            exact BitVec.le_trans (BitVec.le_of_lt hlt) (hbest x rfl)
        · rw [if_neg hlt] at hmem hbest
          refine ⟨?_, ?_, ?_⟩
          · rcases hmem with hm | hm
            · exact .inl (List.mem_cons_of_mem _ hm)
            · exact .inr hm
          · intro u hu
            rcases List.mem_cons.1 hu with rfl | hu
            · exact BitVec.le_trans (BitVec.not_lt.1 hlt) (hbest m rfl)
            · exact hle u hu
          · intro m' hm'
            obtain rfl := Option.some.inj hm'
            exact hbest m rfl
    · obtain ⟨-, hb⟩ := hnone h
      cases best with
      | none => simp [laterTime] at hb
      | some m =>
        simp only [laterTime] at hb
        split at hb <;> simp at hb

/-- A full read is refused exactly when its `now` is below some stored time of a present instance (R157). -/
theorem timeRegress_iff {cfg : Config} {b : Block} {now : Time} :
    timeRegress cfg b now = true ↔
      ∃ s : Fin 10, present cfg s.val = true ∧ ∃ t ∈ storedTimes (readButton b s), now < t := by
  have key := foldl_laterTime (allStoredTimes cfg b) none
  unfold timeRegress largestStoredTime
  cases hT : (allStoredTimes cfg b).foldl laterTime none with
  | none =>
    obtain ⟨hnil, -⟩ := key.2 hT
    simp only [Bool.false_eq_true, false_iff, not_exists, not_and]
    intro s hs t ht
    have : t ∈ allStoredTimes cfg b := mem_allStoredTimes.2 ⟨s, hs, ht⟩
    simp [hnil] at this
  | some T =>
    obtain ⟨hmem, hle, -⟩ := key.1 T hT
    have hmem : T ∈ allStoredTimes cfg b := by simpa using hmem
    simp only [decide_eq_true_eq]
    constructor
    · intro h
      obtain ⟨s, hs, ht⟩ := mem_allStoredTimes.1 hmem
      exact ⟨s, hs, T, ht, h⟩
    · rintro ⟨s, hs, t, ht, hlt⟩
      have := hle t (mem_allStoredTimes.2 ⟨s, hs, ht⟩)
      bv_omega

/-- Where there is no regress, every stored time of a present instance is at most `now` (R15). -/
theorem stored_le_of_not_timeRegress {cfg : Config} {b : Block} {now t : Time} {s : Fin 10}
    (h : timeRegress cfg b now = false) (hs : present cfg s.val = true) (ht : t ∈ storedTimes (readButton b s)) :
    t ≤ now := by
  refine BitVec.not_lt.1 fun hlt => ?_
  have := timeRegress_iff.2 ⟨s, hs, t, ht, hlt⟩
  simp [h] at this

/-! ### The next input -/

theorem step_idle {s : State} (h : s.inbox = []) : step s = .next s := by
  simp [step, takeInput, h]

theorem step_reset {s : State} {rest : List HostInput} (h : s.inbox = .reset :: rest) :
    step s = .next (hardwareReset { s with inbox := rest }) := by
  simp [step, takeInput, h]

theorem step_command_eq {s : State} {c : Command} {rest : List HostInput} (h : s.inbox = .command c :: rest) :
    step s = exec (decode c) { s with inbox := rest } := by
  simp [step, takeInput, h]

/-- Everything one step can do when it answers a next state. -/
theorem step_cases {s t : State} (h : step s = .next t) :
    (s.inbox = [] ∧ t = s) ∨
      (∃ rest, s.inbox = .reset :: rest ∧ t = hardwareReset { s with inbox := rest }) ∨
      ∃ c rest, s.inbox = .command c :: rest ∧ exec (decode c) { s with inbox := rest } = .next t := by
  cases hi : s.inbox with
  | nil =>
    rw [step_idle hi, Host.Outcome.next.injEq] at h
    exact .inl ⟨rfl, h.symm⟩
  | cons i rest =>
    cases i with
    | reset =>
      rw [step_reset hi, Host.Outcome.next.injEq] at h
      exact .inr (.inl ⟨rest, rfl, h.symm⟩)
    | command c =>
      rw [step_command_eq hi] at h
      exact .inr (.inr ⟨c, rest, rfl, h⟩)

/-! ### CHUNK -/

theorem execChunk_overlong {n : BitVec 4} {d : Lanes} {now : Time} {s : State} (h : s.config.len < n.toNat) :
    execChunk n d now s = complete (flagErrArg s.block) (noFrame s.block) s := by
  simp [execChunk, h, overlongRead]

theorem execChunk_short {n : BitVec 4} {d : Lanes} {now : Time} {s : State} (h : n.toNat < s.config.len) :
    execChunk n d now s = complete (markShortRead s.block) (noFrame s.block) s := by
  simp [execChunk, h, Nat.lt_asymm h, shortRead]

theorem execChunk_full {n : BitVec 4} {d : Lanes} {now : Time} {s : State} (h : n.toNat = s.config.len) :
    execChunk n d now s = fullRead d now s := by
  simp [execChunk, h]

theorem fullRead_of_not_timeRegress {d : Lanes} {now : Time} {s : State}
    (h : timeRegress s.config s.block now = false) :
    fullRead d now s =
      complete (fullReadEffect s.config d now s.block).1 (fullReadEffect s.config d now s.block).2 s := by
  simp [fullRead, h]

theorem fullRead_of_timeRegress {d : Lanes} {now : Time} {s : State} (h : timeRegress s.config s.block now = true) :
    fullRead d now s = .refused .timeRegress := by
  simp [fullRead, h]

/-- Everything CHUNK can do when it answers a next state (R80, R156). -/
theorem execChunk_cases {n : BitVec 4} {d : Lanes} {now : Time} {s t : State} (h : execChunk n d now s = .next t) :
    (s.config.len < n.toNat ∧ t = { s with block := flagErrArg s.block, response := some (noFrame s.block) }) ∨
      (n.toNat < s.config.len ∧ t = { s with block := markShortRead s.block, response := some (noFrame s.block) }) ∨
      (n.toNat = s.config.len ∧ timeRegress s.config s.block now = false ∧
        t = { s with block := (fullReadEffect s.config d now s.block).1,
                     response := some (fullReadEffect s.config d now s.block).2 }) := by
  rcases Nat.lt_trichotomy n.toNat s.config.len with hn | hn | hn
  · rw [execChunk_short hn, complete_eq_next_iff] at h
    exact .inr (.inl ⟨hn, h⟩)
  · rw [execChunk_full hn] at h
    cases hr : timeRegress s.config s.block now with
    | true => simp [fullRead_of_timeRegress hr] at h
    | false =>
      rw [fullRead_of_not_timeRegress hr, complete_eq_next_iff] at h
      exact .inr (.inr ⟨hn, rfl, h⟩)
  · rw [execChunk_overlong hn, complete_eq_next_iff] at h
    exact .inl ⟨hn, h⟩

end Sys2Proof.Machine
end

