-- ==== Sys2Proof/Laws/FrameSync.lean ====
section
/-!
SUPPORT. What the synchronizer does, said over the chunk read as a ring: the search buffer (R83), the scan (R84), offset tracking
(R85) and the payload (R86).
-/

namespace Sys2Proof.Machine

theorem chunkBytes_length (cfg : Config) (d : Lanes) : (chunkBytes cfg d).length = cfg.len := by
  have := len_le_eight cfg
  simp [chunkBytes, this]

theorem chunkBytes_getD (cfg : Config) (d : Lanes) (j : Nat) :
    (chunkBytes cfg d).getD (j % cfg.len) 0 = ringByte cfg d j := by
  have := Nat.mod_lt j (len_pos cfg)
  simp [chunkBytes, ringByte, List.getD_eq_getElem?_getD, this]

theorem chunkBytes_getElem? (cfg : Config) (d : Lanes) (j : Nat) :
    (chunkBytes cfg d)[j % cfg.len]? = some (ringByte cfg d j) := by
  have h : j % cfg.len < (chunkBytes cfg d).length := by
    rw [chunkBytes_length]; exact Nat.mod_lt j (len_pos cfg)
  rw [← chunkBytes_getD, List.getD_eq_getElem?_getD, List.getElem?_eq_getElem h]
  rfl

/-- `search[j]` = `chunk[j mod L]` for `j` < 2`L` (R83). -/
theorem searchBuffer_getElem? {cfg : Config} {d : Lanes} {j : Nat} (h : j < 2 * cfg.len) :
    (searchBuffer (chunkBytes cfg d))[j]? = some (ringByte cfg d j) := by
  rw [← chunkBytes_getElem?, searchBuffer, List.getElem?_append, chunkBytes_length]
  split
  · rename_i hj; rw [Nat.mod_eq_of_lt hj]
  · rename_i hj
    rw [Nat.mod_eq_sub_mod (by omega), Nat.mod_eq_of_lt (by omega)]

/-- A list starts with four given bytes exactly when its first four elements are they. -/
theorem take_four_eq_iff {α : Type} (m : List α) (a b c e : α) :
    m.take 4 = [a, b, c, e] ↔ m[0]? = some a ∧ m[1]? = some b ∧ m[2]? = some c ∧ m[3]? = some e := by
  rcases m with _ | ⟨x0, _ | ⟨x1, _ | ⟨x2, _ | ⟨x3, xs⟩⟩⟩⟩ <;> simp

/-- A window of the search buffer matches exactly when the ring has the signature there (R84). -/
theorem windowMatches_iff {cfg : Config} {d : Lanes} {i : Nat} (hi : i < cfg.len) :
    windowMatches (searchBuffer (chunkBytes cfg d)) i = true ↔ ringHasSig cfg d i := by
  have hlen := len_eq_six_or_eight cfg
  rw [windowMatches, decide_eq_true_eq, sig, take_four_eq_iff]
  simp only [List.getElem?_drop, Nat.add_zero]
  rw [searchBuffer_getElem? (by omega), searchBuffer_getElem? (by omega), searchBuffer_getElem? (by omega),
    searchBuffer_getElem? (by omega)]
  simp [ringHasSig]

/-- The scan finds `p` exactly when `p` is the least ring position that has the signature (R84). -/
theorem scan_eq_some_iff {cfg : Config} {d : Lanes} {p : Nat} :
    scan cfg.len (searchBuffer (chunkBytes cfg d)) = some p ↔
      p < cfg.len ∧ ringHasSig cfg d p ∧ ∀ q < p, ¬ringHasSig cfg d q := by
  simp only [scan, List.find?_range_eq_some, List.mem_range, Bool.not_eq_true']
  constructor
  · rintro ⟨hw, hp, hq⟩
    refine ⟨hp, (windowMatches_iff hp).1 hw, fun q hqp hs => ?_⟩
    have := (windowMatches_iff (Nat.lt_trans hqp hp)).2 hs
    simp [hq q hqp] at this
  · rintro ⟨hp, hs, hq⟩
    refine ⟨(windowMatches_iff hp).2 hs, hp, fun q hqp => ?_⟩
    rw [← Bool.not_eq_true]
    exact fun hw => hq q hqp ((windowMatches_iff (Nat.lt_trans hqp hp)).1 hw)

/-- The scan finds nothing exactly when no ring position has the signature (R84). -/
theorem scan_eq_none_iff {cfg : Config} {d : Lanes} :
    scan cfg.len (searchBuffer (chunkBytes cfg d)) = none ↔ ∀ p < cfg.len, ¬ringHasSig cfg d p := by
  simp only [scan, List.find?_eq_none, List.mem_range]
  exact ⟨fun h p hp hs => h p hp ((windowMatches_iff hp).2 hs), fun h p hp hw => h p hp ((windowMatches_iff hp).1 hw)⟩

/-- A found position is kept whole by the 3-bit register (R21). -/
theorem trackOffset_some_toNat {cfg : Config} {p : Nat} (hp : p < cfg.len) (old : BitVec 3) :
    (trackOffset (some p) old).toNat = p := by
  have := len_le_eight cfg
  simp only [trackOffset, BitVec.toNat_ofNat]
  omega

@[simp] theorem trackOffset_none (old : BitVec 3) : trackOffset none old = old := rfl

/-- The payload bytes are ring bytes behind the signature (R86). -/
theorem payloadByte_eq (cfg : Config) (d : Lanes) (off k : Nat) :
    payloadByte cfg.len (chunkBytes cfg d) off k = ringByte cfg d (off + 4 + k) :=
  chunkBytes_getD cfg d (off + 4 + k)

theorem payloadLen_six {cfg : Config} (h : cfg.frameLen = .six) : cfg.payloadLen = 2 := by
  simp [Config.payloadLen, Config.len, FrameLen.bytes, h]

theorem payloadLen_eight {cfg : Config} (h : cfg.frameLen = .eight) : cfg.payloadLen = 4 := by
  simp [Config.payloadLen, Config.len, FrameLen.bytes, h]

theorem extractPayload_six {cfg : Config} (h : cfg.frameLen = .six) (d : Lanes) (off : Nat) :
    extractPayload cfg (chunkBytes cfg d) off = [ringByte cfg d (off + 4), ringByte cfg d (off + 5)] := by
  simp [extractPayload, payloadLen_six h, payloadByte_eq, List.range_succ]

theorem extractPayload_eight {cfg : Config} (h : cfg.frameLen = .eight) (d : Lanes) (off : Nat) :
    extractPayload cfg (chunkBytes cfg d) off =
      [ringByte cfg d (off + 4), ringByte cfg d (off + 5), ringByte cfg d (off + 6), ringByte cfg d (off + 7)] := by
  simp [extractPayload, payloadLen_eight h, payloadByte_eq, List.range_succ]

end Sys2Proof.Machine
end

