-- ==== Sys2Proof/Laws/PayloadDecode.lean ====
section
/-!
SUPPORT. What the decoder gives (R100 to R108), said over the ring bytes it reads.
-/

namespace Sys2Proof.Machine

/-- Packing the reversed bits gives the control byte back (R101). -/
theorem packBits_buttonBits (c : Byte) : packBits (buttonBits c) = c := by
  revert c; decide

theorem decodePayload_btn (cfg : Config) (payload : List Byte) :
    (decodePayload cfg payload).btn = payload.getD 0 0 := packBits_buttonBits _

theorem decodePayload_pot (cfg : Config) (payload : List Byte) : (decodePayload cfg payload).pot = payload.getD 1 0 := rfl

theorem decodePayload_prof_six {cfg : Config} (h : cfg.frameLen = .six) (payload : List Byte) :
    (decodePayload cfg payload).prof = 0 := by
  simp [decodePayload, h]

theorem decodePayload_prof_eight {cfg : Config} (h : cfg.frameLen = .eight) (payload : List Byte) :
    (decodePayload cfg payload).prof = profileBits cfg.profBitMode (payload.getD 2 0) (payload.getD 3 0) := by
  simp [decodePayload, h]

theorem profileBits_prev (mode : ProfBitMode) (p q : Byte) :
    (profileBits mode p q).getLsbD 0 = profilePressed mode p := by
  have key : ∀ x y : Bool, (bit 2 x ||| bit 2 y <<< 1).getLsbD 0 = x := by decide
  exact key _ _

theorem profileBits_next (mode : ProfBitMode) (p q : Byte) :
    (profileBits mode p q).getLsbD 1 = profilePressed mode q := by
  have key : ∀ x y : Bool, (bit 2 x ||| bit 2 y <<< 1).getLsbD 1 = y := by decide
  exact key _ _

/-- What a full read decodes at offset `off`, as ring bytes (R86, R101, R103). -/
theorem decodeAt_btn (cfg : Config) (d : Lanes) (off : Nat) :
    (decodePayload cfg (extractPayload cfg (chunkBytes cfg d) off)).btn = ringByte cfg d (off + 4) := by
  rw [decodePayload_btn]
  cases h : cfg.frameLen with
  | six => simp [extractPayload_six h]
  | eight => simp [extractPayload_eight h]

theorem decodeAt_pot (cfg : Config) (d : Lanes) (off : Nat) :
    (decodePayload cfg (extractPayload cfg (chunkBytes cfg d) off)).pot = ringByte cfg d (off + 5) := by
  rw [decodePayload_pot]
  cases h : cfg.frameLen with
  | six => simp [extractPayload_six h]
  | eight => simp [extractPayload_eight h]

theorem decodeAt_prof_eight {cfg : Config} (h : cfg.frameLen = .eight) (d : Lanes) (off : Nat) :
    (decodePayload cfg (extractPayload cfg (chunkBytes cfg d) off)).prof =
      profileBits cfg.profBitMode (ringByte cfg d (off + 6)) (ringByte cfg d (off + 7)) := by
  simp [decodePayload_prof_eight h, extractPayload_eight h]

/-! ### Building a block -/

/-- A block is built exactly from parameters in range (R153). -/
theorem build_isSome (p : Params) : (Config.build p).isSome = p.wf := by
  cases h : p.wf <;> simp [Config.build, h]

end Sys2Proof.Machine
end

