-- ==== Sys2Proof/Laws/Debounce.lean ====
section
/-!
SUPPORT. One instance's step case by case (R110 to R114), the invariant of an instance, and the bank step as a lane-wise map
(R118, R126).
-/

namespace Sys2Proof.Machine

/-! ### One instance -/

theorem stepButton_unchanged (cfg : Config) (s : Nat) {st : ButtonState} {raw : Bool} (now : Time) (h : st.level = raw) :
    stepButton cfg s st raw now = (st, none) := by
  unfold stepButton
  cases hl : st.level <;> cases raw <;> simp_all

theorem stepButton_press (cfg : Config) (s : Nat) {st : ButtonState} (now : Time) (h : st.level = false) :
    stepButton cfg s st true now = if pressAccepted cfg st now then (acceptPress st now, none) else (st, none) := by
  simp [stepButton, h]

theorem stepButton_release (cfg : Config) (s : Nat) {st : ButtonState} (now : Time) (h : st.level = true) :
    stepButton cfg s st false now = (acceptRelease st now, some (releaseEvent cfg s st now)) := by
  simp [stepButton, h]

/-- Everything one instance's step can do: nothing, an accepted press without an event, or a release with its event (R125). -/
theorem stepButton_cases (cfg : Config) (s : Nat) (st : ButtonState) (raw : Bool) (now : Time) :
    (stepButton cfg s st raw now = (st, none) ∧ ¬(st.level = true ∧ raw = false)) ∨
      (st.level = false ∧ raw = true ∧ pressAccepted cfg st now = true ∧
        stepButton cfg s st raw now = (acceptPress st now, none)) ∨
      (st.level = true ∧ raw = false ∧
        stepButton cfg s st raw now = (acceptRelease st now, some (releaseEvent cfg s st now))) := by
  cases hl : st.level <;> cases raw
  · exact .inl ⟨stepButton_unchanged cfg s now hl, by simp⟩
  · cases hp : pressAccepted cfg st now with
    | true => exact .inr (.inl ⟨rfl, rfl, rfl, by simp [stepButton_press cfg s now hl, hp]⟩)
    | false => exact .inl ⟨by simp [stepButton_press cfg s now hl, hp], by simp⟩
  · exact .inr (.inr ⟨rfl, rfl, stepButton_release cfg s now hl⟩)
  · exact .inl ⟨stepButton_unchanged cfg s now hl, by simp⟩

/-- An instance emits an event exactly on a release (R113, R122). -/
theorem stepButton_event (cfg : Config) (s : Nat) (st : ButtonState) (raw : Bool) (now : Time) :
    (stepButton cfg s st raw now).2 =
      if st.level = true ∧ raw = false then some (releaseEvent cfg s st now) else none := by
  rcases stepButton_cases cfg s st raw now with ⟨h, hn⟩ | ⟨hl, hr, -, h⟩ | ⟨hl, hr, h⟩
  · rw [h, if_neg hn]
  · rw [h, if_neg (by simp [hl])]
  · rw [h, if_pos ⟨hl, hr⟩]

theorem consistent_iff {st : ButtonState} :
    st.consistent = true ↔
      st.lastDebounceTime = st.pressedTime ∧ (st.level = true → st.pressedTime.isSome = true) ∧
        (st.releasedTime.isSome = true → st.pressedTime.isSome = true) ∧ (st.level = false → st.ordered = true) := by
  cases hl : st.level <;> cases hp : st.pressedTime <;> cases hr : st.releasedTime <;>
    simp [ButtonState.consistent, hl, hp, hr]

/-- The step keeps R33 when `now` is at or after the press time, as R157 makes sure. -/
theorem stepButton_consistent (cfg : Config) (s : Nat) {st : ButtonState} (raw : Bool) {now : Time}
    (h : st.consistent = true) (hnow : ∀ t, st.pressedTime = some t → t ≤ now) :
    (stepButton cfg s st raw now).1.consistent = true := by
  rcases stepButton_cases cfg s st raw now with ⟨e, -⟩ | ⟨-, -, -, e⟩ | ⟨hl, -, e⟩
  · rw [e]; exact h
  · rw [e, consistent_iff]
    simp
  · rw [e, consistent_iff]
    obtain ⟨ha, hb, -, -⟩ := consistent_iff.1 h
    refine ⟨ha, by simp, fun _ => hb hl, fun _ => ?_⟩
    obtain ⟨p, hp⟩ := Option.isSome_iff_exists.1 (hb hl)
    simp [ButtonState.ordered, hp, hnow p hp]

/-! ### The event record -/

theorem eventByte_fields (s : Fin 10) (long : Bool) :
    ((eventByte s.val long).extractLsb' 0 4).toNat = s.val ∧ (eventByte s.val long).getLsbD 4 = long ∧
      (eventByte s.val long).extractLsb' 5 3 = 0 := by
  revert s long; decide

theorem releaseEvent_src (cfg : Config) (s : Fin 10) (st : ButtonState) (now : Time) :
    (releaseEvent cfg s.val st now).src = s.val := (eventByte_fields s _).1

theorem releaseEvent_long (cfg : Config) (s : Fin 10) (st : ButtonState) (now : Time) :
    (releaseEvent cfg s.val st now).long = isLongPress cfg (heldDuration s.val st now) := (eventByte_fields s _).2.1

theorem releaseEvent_dur (cfg : Config) (s : Nat) (st : ButtonState) (now : Time) :
    (releaseEvent cfg s st now).dur = heldDuration s st now := rfl

theorem heldDuration_some {s : Nat} {st : ButtonState} {now t : Time} (h : st.pressedTime = some t) :
    heldDuration s st now = now - t := by
  simp [heldDuration, h]

/-! ### The bank -/

/-- What the turns over some distinct selectors do: each of their lanes takes its own step, every other lane stays, and the events
are appended in the order of the selectors. -/
theorem foldl_bankTurn (cfg : Config) (btn : Byte) (prof : BitVec 2) (now : Time) (sels : List (Fin 10))
    (hnd : sels.Nodup) (bank : Vector ButtonState 10) (evs : List Event) :
    (∀ s : Fin 10, (sels.foldl (bankTurn cfg btn prof now) (bank, evs)).1[s] =
        if s ∈ sels then (stepButton cfg s.val bank[s] (feedBit btn prof s.val) now).1 else bank[s]) ∧
      (sels.foldl (bankTurn cfg btn prof now) (bank, evs)).2 =
        evs ++ sels.filterMap fun s => (stepButton cfg s.val bank[s] (feedBit btn prof s.val) now).2 := by
  induction sels generalizing bank evs with
  | nil => simp
  | cons x xs ih =>
    obtain ⟨hx, hxs⟩ := List.nodup_cons.1 hnd
    obtain ⟨hb, he⟩ := ih hxs (bankTurn cfg btn prof now (bank, evs) x).1 (bankTurn cfg btn prof now (bank, evs) x).2
    have other : ∀ s : Fin 10, s ≠ x → (bankTurn cfg btn prof now (bank, evs) x).1[s] = bank[s] := by
      intro s hs
      simp only [bankTurn, Fin.getElem_fin]
      exact Vector.getElem_set_ne _ _ (fun h => hs (Fin.ext h.symm))
    constructor
    · intro s
      rw [List.foldl_cons, hb s]
      by_cases hs : s = x
      · subst hs
        simp [hx, bankTurn]
      · rw [other s hs]
        simp [hs]
    · rw [List.foldl_cons, he]
      have : xs.filterMap (fun s => (stepButton cfg s.val (bankTurn cfg btn prof now (bank, evs) x).1[s]
          (feedBit btn prof s.val) now).2) =
          xs.filterMap fun s => (stepButton cfg s.val bank[s] (feedBit btn prof s.val) now).2 := by
        refine List.filterMap_congr fun s hs => ?_
        rw [other s (fun h => hx (h ▸ hs))]
      rw [this, List.filterMap_cons]
      simp only [bankTurn, Fin.getElem_fin]
      cases (stepButton cfg x.val bank[x.val] (feedBit btn prof x.val) now).2 <;> simp

/-- A present lane takes its own step; an absent one stays (R118, R126). -/
theorem bankStep_lane (cfg : Config) (btn : Byte) (prof : BitVec 2) (now : Time) (bank : Vector ButtonState 10) (s : Fin 10) :
    (bankStep cfg btn prof now bank).1[s] =
      if present cfg s.val then (stepButton cfg s.val bank[s] (feedBit btn prof s.val) now).1 else bank[s] := by
  rw [bankStep, (foldl_bankTurn cfg btn prof now _ (presentSelectors_nodup cfg) bank []).1 s]
  simp [mem_presentSelectors]

/-- The events, in the order of the selectors (R119). -/
theorem bankStep_events (cfg : Config) (btn : Byte) (prof : BitVec 2) (now : Time) (bank : Vector ButtonState 10) :
    (bankStep cfg btn prof now bank).2 =
      (presentSelectors cfg).filterMap fun s => (stepButton cfg s.val bank[s] (feedBit btn prof s.val) now).2 := by
  rw [bankStep, (foldl_bankTurn cfg btn prof now _ (presentSelectors_nodup cfg) bank []).2]
  simp

/-- An event of the bank is the release event of a present, Pressed instance whose bit is 0. -/
theorem mem_bankStep_events {cfg : Config} {btn : Byte} {prof : BitVec 2} {now : Time} {bank : Vector ButtonState 10}
    {e : Event} :
    e ∈ (bankStep cfg btn prof now bank).2 ↔
      ∃ s : Fin 10, present cfg s.val = true ∧ bank[s].level = true ∧ feedBit btn prof s.val = false ∧
        e = releaseEvent cfg s.val bank[s] now := by
  simp only [bankStep_events, List.mem_filterMap, mem_presentSelectors, stepButton_event, Option.ite_none_right_eq_some,
    Option.some.injEq]
  constructor
  · rintro ⟨s, hp, ⟨hl, hr⟩, rfl⟩
    exact ⟨s, hp, hl, hr, rfl⟩
  · rintro ⟨s, hp, hl, hr, rfl⟩
    exact ⟨s, hp, ⟨hl, hr⟩, rfl⟩

end Sys2Proof.Machine
end

