-- ==== Sys2Proof/Laws/Flags.lean ====
section
/-!
SUPPORT. The packed fields read back: FRAME_OUT's `FLAGS` (R66), the status word (R68) and BTNREC's `BF` (R69).
-/

namespace Sys2Proof.Machine

theorem frameFlags_fields (valid sync : Bool) (offset : BitVec 3) :
    (frameFlags valid sync offset).getLsbD 0 = valid ∧ (frameFlags valid sync offset).getLsbD 1 = sync ∧
      (frameFlags valid sync offset).extractLsb' 2 3 = offset ∧ (frameFlags valid sync offset).extractLsb' 5 3 = 0 := by
  revert valid sync offset; decide

theorem bit_getLsbD (w : Nat) (b : Bool) (i : Nat) : (bit w b).getLsbD i = (decide (i = 0) && decide (0 < w) && b) := by
  simp only [bit, BitVec.getLsbD_setWidth, BitVec.getLsbD_ofBool]
  cases b <;> by_cases hi : i = 0 <;> simp [hi]

theorem bit_getElem (w : Nat) (b : Bool) (i : Nat) (hi : i < w) : (bit w b)[i] = (decide (i = 0) && b) := by
  rw [← BitVec.getLsbD_eq_getElem, bit_getLsbD]
  simp [show 0 < w by omega]

theorem statusWord_offset (cfg : Config) (b : Block) : (statusWord cfg b).extractLsb' 0 3 = b.lastOffset := by
  ext i hi
  have : i = 0 ∨ i = 1 ∨ i = 2 := by omega
  rcases this with rfl | rfl | rfl <;>
    simp [statusWord, ← BitVec.getLsbD_eq_getElem, bit_getLsbD]

/-- The six single-bit fields of the status word. -/
theorem statusWord_bits (cfg : Config) (b : Block) :
    (statusWord cfg b).getLsbD 3 = b.syncOk ∧ (statusWord cfg b).getLsbD 4 = b.shortRd ∧
      (statusWord cfg b).getLsbD 5 = b.errOp ∧ (statusWord cfg b).getLsbD 6 = b.errArg ∧
        (statusWord cfg b).getLsbD 7 = decide (cfg.frameLen = .eight) := by
  refine ⟨?_, ?_, ?_, ?_, ?_⟩ <;> simp [statusWord, bit_getElem]

theorem statusWord_nin (cfg : Config) (b : Block) :
    ((statusWord cfg b).extractLsb' 8 4).toNat = cfg.nInputs.val ∧ (statusWord cfg b).extractLsb' 12 4 = 0 := by
  have key : ∀ n : Fin 9, ((BitVec.ofNat 16 n.val <<< 8).extractLsb' 8 4).toNat = n.val ∧
      (BitVec.ofNat 16 n.val <<< 8).extractLsb' 12 4 = 0 := by decide
  obtain ⟨h1, h2⟩ := key cfg.nInputs
  constructor
  · rw [← h1]
    congr 1
    ext i hi
    have : i = 0 ∨ i = 1 ∨ i = 2 ∨ i = 3 := by omega
    rcases this with rfl | rfl | rfl | rfl <;> simp [statusWord, bit_getElem]
  · rw [← h2]
    ext i hi
    have : i = 0 ∨ i = 1 ∨ i = 2 ∨ i = 3 := by omega
    rcases this with rfl | rfl | rfl | rfl <;> simp [statusWord, bit_getElem]

theorem recordFlags_fields (st : ButtonState) :
    (recordFlags st).getLsbD 0 = true ∧ (recordFlags st).getLsbD 1 = st.level ∧
      (recordFlags st).getLsbD 2 = st.lastDebounceTime.isSome ∧ (recordFlags st).getLsbD 3 = st.pressedTime.isSome ∧
        (recordFlags st).getLsbD 4 = st.releasedTime.isSome ∧ (recordFlags st).extractLsb' 5 3 = 0 := by
  have key : ∀ a b c e : Bool,
      let w : Byte := bit 8 true ||| (bit 8 a <<< 1) ||| (bit 8 b <<< 2) ||| (bit 8 c <<< 3) ||| (bit 8 e <<< 4)
      w.getLsbD 0 = true ∧ w.getLsbD 1 = a ∧ w.getLsbD 2 = b ∧ w.getLsbD 3 = c ∧ w.getLsbD 4 = e ∧
        w.extractLsb' 5 3 = 0 := by decide
  exact key _ _ _ _

end Sys2Proof.Machine
end

