-- ==== Sys2Proof/Laws/Chunk.lean ====
section
/-!
SUPPORT. What a full read leaves, field by field, so that no later proof unfolds `fullReadEffect` (R80).
-/

namespace Sys2Proof.Machine

/-- What the scan of a full read found. -/
def foundAt (cfg : Config) (d : Lanes) : Option Nat := scan cfg.len (searchBuffer (chunkBytes cfg d))

/-- The offset a full read leaves. -/
def offsetAfter (cfg : Config) (d : Lanes) (b : Block) : BitVec 3 := trackOffset (foundAt cfg d) b.lastOffset

/-- What a full read decodes. -/
def decodedBy (cfg : Config) (d : Lanes) (b : Block) : Decoded :=
  decodePayload cfg (extractPayload cfg (chunkBytes cfg d) (offsetAfter cfg d b).toNat)

/-- The bank and the events a full read leaves. -/
def bankAfter (cfg : Config) (d : Lanes) (now : Time) (b : Block) : Vector ButtonState 10 × List Event :=
  bankStep cfg (decodedBy cfg d b).btn (decodedBy cfg d b).prof now b.btn

/-- The response of a full read. -/
def frameAfter (cfg : Config) (d : Lanes) (now : Time) (b : Block) : FrameOut :=
  ⟨frameFlags true (foundAt cfg d).isSome (offsetAfter cfg d b), (decodedBy cfg d b).btn, (decodedBy cfg d b).pot,
    (decodedBy cfg d b).prof.setWidth 8, (bankAfter cfg d now b).2⟩

variable (cfg : Config) (d : Lanes) (now : Time) (b : Block)

/-- Everything a full read does to the block (R80). -/
theorem fullReadEffect_eq :
    fullReadEffect cfg d now b =
      ({ b with lastOffset := offsetAfter cfg d b, syncOk := (foundAt cfg d).isSome, shortRd := false,
                btn := (bankAfter cfg d now b).1 }, .frameOut (frameAfter cfg d now b)) := rfl

theorem foundAt_eq_some_iff {p : Nat} :
    foundAt cfg d = some p ↔ p < cfg.len ∧ ringHasSig cfg d p ∧ ∀ q < p, ¬ringHasSig cfg d q := scan_eq_some_iff

theorem foundAt_eq_none_iff : foundAt cfg d = none ↔ ∀ p < cfg.len, ¬ringHasSig cfg d p := scan_eq_none_iff

theorem offsetAfter_of_found {p : Nat} (h : foundAt cfg d = some p) : (offsetAfter cfg d b).toNat = p := by
  rw [offsetAfter, h]
  exact trackOffset_some_toNat ((foundAt_eq_some_iff cfg d).1 h).1 _

theorem offsetAfter_of_not_found (h : foundAt cfg d = none) : offsetAfter cfg d b = b.lastOffset := by
  rw [offsetAfter, h, trackOffset_none]

/-- The raw bit the response shows is the bit the instance was given. -/
theorem frameAfter_rawBit (s : Fin 10) :
    (frameAfter cfg d now b).rawBit s.val = feedBit (decodedBy cfg d b).btn (decodedBy cfg d b).prof s.val := by
  have key : ∀ (x : BitVec 2) (k : Fin 10), 8 ≤ k.val → (x.setWidth 8).getLsbD (k.val - 8) = x.getLsbD (k.val - 8) := by decide
  by_cases h : s.val < 8
  · simp [FrameOut.rawBit, feedBit, h, frameAfter]
  · simp only [FrameOut.rawBit, feedBit, h, frameAfter, if_false]
    exact key _ s (by omega)

/-- A present lane of a full read takes its own step with the bit the response shows (R118, R126). -/
theorem bankAfter_lane {s : Fin 10} (hp : present cfg s.val = true) :
    (bankAfter cfg d now b).1[s] =
      (stepButton cfg s.val b.btn[s] ((frameAfter cfg d now b).rawBit s.val) now).1 := by
  rw [frameAfter_rawBit, bankAfter, bankStep_lane, if_pos hp]

/-- An absent lane stays (R102). -/
theorem bankAfter_absent {s : Fin 10} (hp : present cfg s.val = false) : (bankAfter cfg d now b).1[s] = b.btn[s] := by
  rw [bankAfter, bankStep_lane, hp]
  rfl

/-- The events of a full read are the release events of the present, Pressed instances whose bit is 0 (R113, R117). -/
theorem mem_frameAfter_events {e : Event} :
    e ∈ (frameAfter cfg d now b).events ↔
      ∃ s : Fin 10, present cfg s.val = true ∧ b.btn[s].level = true ∧ (frameAfter cfg d now b).rawBit s.val = false ∧
        e = releaseEvent cfg s.val b.btn[s] now := by
  show e ∈ (bankAfter cfg d now b).2 ↔ _
  rw [bankAfter, mem_bankStep_events]
  simp only [frameAfter_rawBit]

/-- The host's duty of R157 is exactly what keeps a full read from being refused. -/
theorem noTimeRegress_iff {s : State} {now : Time} :
    NoTimeRegress s now ↔ timeRegress s.config s.block now = false := by
  rw [← Bool.not_eq_true, timeRegress_iff]
  constructor
  · rintro h ⟨sel, hp, t, ht, hlt⟩
    have := h sel hp t (mem_storedTimes.1 ht)
    bv_omega
  · intro h sel hp t ht
    refine BitVec.not_lt.1 fun hlt => h ⟨sel, hp, t, mem_storedTimes.2 ht, hlt⟩

/-- A full read without a time regress completes, and this is the state it ends in (R80). -/
theorem exec_fullRead {n : BitVec 4} {d : Lanes} {now : Time} {s : State} (hn : n.toNat = s.config.len)
    (h : NoTimeRegress s now) :
    exec (.chunk n d now) s =
      .next { s with
        block := { s.block with lastOffset := offsetAfter s.config d s.block, syncOk := (foundAt s.config d).isSome,
                                shortRd := false, btn := (bankAfter s.config d now s.block).1 },
        response := some (.frameOut (frameAfter s.config d now s.block)) } := by
  show execChunk n d now s = _
  rw [execChunk_full hn, fullRead_of_not_timeRegress (noTimeRegress_iff.1 h)]
  rfl

/-- A full read that answers a next state had no time regress. -/
theorem noTimeRegress_of_exec {n : BitVec 4} {d : Lanes} {now : Time} {s t : State} (hn : n.toNat = s.config.len)
    (h : exec (.chunk n d now) s = .next t) : NoTimeRegress s now := by
  rcases execChunk_cases h with ⟨hlt, -⟩ | ⟨hlt, -⟩ | ⟨-, hr, -⟩
  · omega
  · omega
  · exact noTimeRegress_iff.2 hr

/-- A subtraction of a stored time is exact where `now` is not before it (R15). -/
theorem sub_toNat_of_le {now t : Time} (h : t ≤ now) : t.toNat + (now - t).toNat = now.toNat := by
  bv_omega

end Sys2Proof.Machine
end

