-- ==== Sys2Proof/Laws/Control.lean ====
section
/-!
SUPPORT. What each control and read command can do (R130 to R134).
-/

namespace Sys2Proof.Machine

/-- Everything RDBTN can do: it always completes with a BTNREC, and changes the block only to flag a selector that names no
instance (R132). -/
theorem execRdbtn_cases {sel : BitVec 4} {s t : State} (h : execRdbtn sel s = .next t) :
    ∃ r, (sel.toNat < 10 ∧ t = { s with response := some (.btnRec r) }) ∨
      (10 ≤ sel.toNat ∧ t = { s with block := flagErrArg s.block, response := some (.btnRec r) }) := by
  unfold execRdbtn at h
  split at h
  · split at h <;>
    · obtain rfl := complete_eq_next_iff.1 h
      exact ⟨_, .inl ⟨by assumption, rfl⟩⟩
  · obtain rfl := complete_eq_next_iff.1 h
    exact ⟨_, .inr ⟨by omega, rfl⟩⟩

theorem execRdbtn_completes (sel : BitVec 4) (s : State) : ∃ b r, execRdbtn sel s = complete b (.btnRec r) s := by
  unfold execRdbtn
  split
  · split <;> exact ⟨_, _, rfl⟩
  · exact ⟨_, _, rfl⟩

/-- The block after reset holds every reset value (R170). -/
theorem reset_atResetValues : AtResetValues Block.reset := by
  refine ⟨rfl, rfl, rfl, rfl, rfl, fun sel => ?_⟩
  have h := readButton_reset sel
  simp only [readButton] at h
  rw [h]
  exact ⟨rfl, rfl, rfl, rfl⟩

end Sys2Proof.Machine
end

