-- ==== Sys2Proof/Laws/Decode.lean ====
section
/-!
SUPPORT. The fields of a command byte, and the decoder by opcode (R60, R61).
-/

namespace Sys2Proof

theorem opField_commandByte (op arg : BitVec 4) : opField (commandByte op arg) = op := by
  revert op arg; decide

theorem argField_commandByte (op arg : BitVec 4) : argField (commandByte op arg) = arg := by
  revert op arg; decide

theorem commandByte_fields (b : Byte) : commandByte (opField b) (argField b) = b := by
  revert b; decide

/-- The match of a row tests `OP` alone (R60, R61). -/
theorem mask_eq_iff (b : Byte) (op : BitVec 4) : b &&& 0xF0 = op ++ 0#4 ↔ opField b = op := by
  revert b op; decide

/-- The decoder looks up the opcode map at `OP`. -/
theorem decode_of_opField {c : Command} {op : BitVec 4} (h : opField c.byte = op) :
    decode c = (opcodeMap[op.toNat]'op.isLt) c := by
  subst h; rfl

theorem decode_command (op arg : BitVec 4) (lanes : Lanes) (now : Time) :
    decode ⟨commandByte op arg, lanes, now⟩ = (opcodeMap[op.toNat]'op.isLt) ⟨commandByte op arg, lanes, now⟩ :=
  decode_of_opField (c := ⟨commandByte op arg, lanes, now⟩) (opField_commandByte op arg)

end Sys2Proof
end

