-- ==== Sys2Proof/Laws/PerInstr.lean ====
section
/-!
SUPPORT. One family about every command as syntax: the command byte the encoder writes is the row's match value with the argument
in bits [3:0] (R60, R61, opcode_table.json).
-/

namespace Sys2Proof.Laws.CommandByte

/-- `OP` of a command's row. -/
def opcode : Instr → BitVec 4
  | .nop _ => 0x0
  | .chunk .. => 0x1
  | .rdstat _ => 0x2
  | .rdbtn _ => 0x3
  | .reserved4 _ => 0x4
  | .reserved5 _ => 0x5
  | .reserved6 _ => 0x6
  | .reserved7 _ => 0x7
  | .reserved8 _ => 0x8
  | .reserved9 _ => 0x9
  | .reservedA _ => 0xA
  | .reservedB _ => 0xB
  | .reservedC _ => 0xC
  | .reservedD _ => 0xD
  | .reservedE _ => 0xE
  | .srst _ => 0xF

/-- `ARG` of a command. -/
def argument : Instr → BitVec 4
  | .nop arg | .rdstat arg | .reserved4 arg | .reserved5 arg | .reserved6 arg | .reserved7 arg | .reserved8 arg
  | .reserved9 arg | .reservedA arg | .reservedB arg | .reservedC arg | .reservedD arg | .reservedE arg | .srst arg => arg
  | .chunk n _ _ => n
  | .rdbtn sel => sel

/-- The byte the encoder writes holds the row's opcode and the command's argument. -/
def Statement (i : Instr) : Prop := opField (encode i).byte = opcode i ∧ argField (encode i).byte = argument i

theorem nop (arg : BitVec 4) : Statement (.nop arg) := ⟨opField_commandByte _ _, argField_commandByte _ _⟩
theorem rdstat (arg : BitVec 4) : Statement (.rdstat arg) := ⟨opField_commandByte _ _, argField_commandByte _ _⟩
theorem rdbtn (arg : BitVec 4) : Statement (.rdbtn arg) := ⟨opField_commandByte _ _, argField_commandByte _ _⟩
theorem reserved4 (arg : BitVec 4) : Statement (.reserved4 arg) := ⟨opField_commandByte _ _, argField_commandByte _ _⟩
theorem reserved5 (arg : BitVec 4) : Statement (.reserved5 arg) := ⟨opField_commandByte _ _, argField_commandByte _ _⟩
theorem reserved6 (arg : BitVec 4) : Statement (.reserved6 arg) := ⟨opField_commandByte _ _, argField_commandByte _ _⟩
theorem reserved7 (arg : BitVec 4) : Statement (.reserved7 arg) := ⟨opField_commandByte _ _, argField_commandByte _ _⟩
theorem reserved8 (arg : BitVec 4) : Statement (.reserved8 arg) := ⟨opField_commandByte _ _, argField_commandByte _ _⟩
theorem reserved9 (arg : BitVec 4) : Statement (.reserved9 arg) := ⟨opField_commandByte _ _, argField_commandByte _ _⟩
theorem reservedA (arg : BitVec 4) : Statement (.reservedA arg) := ⟨opField_commandByte _ _, argField_commandByte _ _⟩
theorem reservedB (arg : BitVec 4) : Statement (.reservedB arg) := ⟨opField_commandByte _ _, argField_commandByte _ _⟩
theorem reservedC (arg : BitVec 4) : Statement (.reservedC arg) := ⟨opField_commandByte _ _, argField_commandByte _ _⟩
theorem reservedD (arg : BitVec 4) : Statement (.reservedD arg) := ⟨opField_commandByte _ _, argField_commandByte _ _⟩
theorem reservedE (arg : BitVec 4) : Statement (.reservedE arg) := ⟨opField_commandByte _ _, argField_commandByte _ _⟩
theorem srst (arg : BitVec 4) : Statement (.srst arg) := ⟨opField_commandByte _ _, argField_commandByte _ _⟩
theorem chunk (n : BitVec 4) (d : Lanes) (now : Time) : Statement (.chunk n d now) :=
  ⟨opField_commandByte _ _, argField_commandByte _ _⟩

end Sys2Proof.Laws.CommandByte
end

