-- ==== Sys2Proof/Laws/Run.lean ====
section
/-!
SUPPORT. Runs of steps (R50): a run is its first step and the run from there.
-/

namespace Sys2Proof.Machine

theorem runSteps_zero (s : State) : runSteps 0 s = .next s := rfl

theorem runSteps_succ_of_next {s u : State} (k : Nat) (h : Machine.step s = .next u) :
    runSteps (k + 1) s = runSteps k u := by
  simp only [runSteps, Host.Core.run, Sys2Proof.core, h]

/-- A run of `k + 1` steps that ends in a state begins with a step that answers one. -/
theorem runSteps_succ_cases {s t : State} {k : Nat} (h : runSteps (k + 1) s = .next t) :
    ∃ u, Machine.step s = .next u ∧ runSteps k u = .next t := by
  cases hs : Machine.step s with
  | next u => exact ⟨u, rfl, by rw [← runSteps_succ_of_next k hs]; exact h⟩
  | fault r => nomatch r
  | refused r => simp [runSteps, Host.Core.run, Sys2Proof.core, hs] at h

end Sys2Proof.Machine
end

