-- ==== Sys2Proof/Tests/Slice0.lean ====
section
/-!
SUPPORT. Small tests, with expected results taken from the spec's own vectors (95_test_vectors.md) or worked by hand from its rules,
and a witness for the hypotheses of every statement that has any.
-/

namespace Sys2Proof.Tests

open Sys2Proof Sys2Proof.Machine

/-! ### Helpers -/

/-- The next state of an outcome, if there is one, so that outcomes can be compared. -/
def nextOf (o : Result) : Option State :=
  match o with
  | .next t    => some t
  | .fault _   => none
  | .refused _ => none

theorem eq_next_of_nextOf {o : Result} {t : State} (h : nextOf o = some t) : o = .next t := by
  cases o with
  | next u => simpa [nextOf] using h
  | fault r => nomatch r
  | refused r => simp [nextOf] at h

/-- The response of a completed command. -/
def responseOf (o : Result) : Option Response := (nextOf o).bind (·.response)

/-- A default build with `L` = 6. -/
def build6 (n : Fin 9) : Config := ⟨.six, n, 50, 300, 1, .lsb⟩

/-- A default build with `L` = 8. -/
def build8 (n : Fin 9) : Config := ⟨.eight, n, 50, 300, 1, .lsb⟩

/-- A reset block of a build with button 0 in a given state. -/
def withButton0 (cfg : Config) (st : ButtonState) : State :=
  { State.resetWith cfg with block := { Block.reset with btn := Block.reset.btn.set 0 st } }

/-- Button 0 Pressed since 50, released before at 10: L1-4 after its step 4. -/
def held : State := withButton0 (build6 1) ⟨true, some 50, some 50, some 10⟩

/-- Button 0 Idle, pressed at 0 and released at 10: L1-4 after its step 2. -/
def released : State := withButton0 (build6 1) ⟨false, some 0, some 0, some 10⟩

/-- An aligned 6-byte frame in eight lanes. -/
def frame6 (c p : Byte) : Lanes := #v[2, 4, 3, 4, c, p, 0, 0]

/-- Lanes with no signature anywhere. -/
def noSig : Lanes := #v[1, 2, 3, 4, 5, 6, 7, 8]

/-! ### Decoding (R61, R74; the bytes written out from the encodings) -/

theorem test_decode_nop : decode ⟨0b0000_0111, noSig, 5⟩ = .nop 7 := by decide
theorem test_decode_chunk : decode ⟨0b0001_0110, noSig, 5⟩ = .chunk 6 noSig 5 := by decide
theorem test_decode_rdstat : decode ⟨0b0010_1111, noSig, 5⟩ = .rdstat 15 := by decide
theorem test_decode_rdbtn : decode ⟨0b0011_1001, noSig, 5⟩ = .rdbtn 9 := by decide
theorem test_decode_srst : decode ⟨0b1111_0011, noSig, 5⟩ = .srst 3 := by decide
theorem test_decode_reserved :
    [0x40, 0x55, 0x60, 0x70, 0x80, 0x90, 0xA0, 0xB0, 0xC0, 0xD0, 0xEF].map (fun b => decode ⟨b, noSig, 5⟩) =
      [.reserved4 0, .reserved5 5, .reserved6 0, .reserved7 0, .reserved8 0, .reserved9 0, .reservedA 0, .reservedB 0,
        .reservedC 0, .reservedD 0, .reservedE 15] := by decide
theorem test_decode_table_word : decodeTableWord 8 0x18 = some (.chunk 8 (Vector.replicate 8 0) 0) := by decide
theorem test_decode_layout :
    decodeTableWord 136 0x00000000000000070807060504030201_18 = some (.chunk 8 #v[1, 2, 3, 4, 5, 6, 7, 8] 7) := by decide

/-! ### Ill-formed terms are refused (R6 to R10, R72, R73, R153) -/

theorem test_build_refuses_frame_len : Config.build { frameLen := 7, nInputs := 2 } = none := by decide
theorem test_build_refuses_inputs : Config.build { frameLen := 6, nInputs := 9 } = none := by decide
theorem test_build_refuses_unit : Config.build { frameLen := 6, nInputs := 2, ticksPerMs := 0 } = none := by decide
theorem test_build_refuses_debounce :
    Config.build { frameLen := 6, nInputs := 2, debounceTicks := some (2 ^ 64) } = none := by decide
theorem test_build_refuses_long :
    Config.build { frameLen := 6, nInputs := 2, longTicks := some (2 ^ 64) } = none := by decide
theorem test_build_defaults : Config.build { frameLen := 6, nInputs := 0, ticksPerMs := 10 } =
    some ⟨.six, 0, 500, 3000, 10, .lsb⟩ := by decide
theorem test_assembler_refuses :
    [Asm.chunk 16 0 [0, 0, 0, 0, 0, 0, 0, 0], .chunk 0 (2 ^ 64) [], .chunk 2 0 [1], .chunk 1 0 [256], .rdbtn 16, .cmd 256,
      .cmd 0x16, .frame8 0 0 0 0 0].map (assemble (build6 2)) = [none, none, none, none, none, none, none, none] ∧
      assemble (build8 2) (.frame6 0 0 0) = none := by decide

/-! ### Single steps -/

/-- L1-7. -/
theorem test_chunk_scenario :
    responseOf (exec (.chunk 8 #v[9, 9, 2, 4, 3, 4, 55, 30] 0) (State.resetWith (build8 8))) =
      some (.frameOut ⟨0x0B, 0x37, 30, 0, []⟩) := by decide

/-- L2-D8, step 2: from instances 0 to 3 Pressed since 0. -/
theorem test_chunk_event_order :
    responseOf (exec (.chunk 8 #v[2, 4, 3, 4, 0, 50, 0, 0] 400)
      { State.resetWith (build8 4) with block :=
        { Block.reset with btn := ((Block.reset.btn.set 3 ⟨true, some 0, some 0, none⟩).set 0 ⟨true, some 0, some 0, none⟩) } }) =
      some (.frameOut ⟨0x03, 0, 50, 3, [⟨0x10, 400⟩, ⟨0x13, 400⟩]⟩) := by decide

/-- L2-C1 and R131. -/
theorem test_rdstat_reset_words :
    [build6 0, build6 8, build8 0, build8 4].map (fun c => responseOf (exec (.rdstat 0) (State.resetWith c))) =
      [some (.status 0x0000), some (.status 0x0800), some (.status 0x0080), some (.status 0x0480)] := by decide

/-- L2-C5: a stored time of 0 is not `NEVER`. -/
theorem test_rdbtn_time_zero :
    responseOf (exec (.rdbtn 0) (withButton0 (build6 1) ⟨true, some 0, some 0, none⟩)) =
      some (.btnRec ⟨0b01111, 0, 0, 0⟩) := by decide

/-- L2-C4: selectors 8 (absent) and 10 (none). -/
theorem test_rdbtn_absent_and_none :
    [8, 10].map (fun sel => ((nextOf (exec (.rdbtn sel) (State.resetWith (build6 2)))).map fun t => (t.response, t.block.errArg))) =
      [some (some (.btnRec ⟨0, 0, 0, 0⟩), false), some (some (.btnRec ⟨0, 0, 0, 0⟩), true)] := by decide

theorem test_nop : nextOf (exec (.nop 7) held) = some { held with response := some .ack } := by decide

/-- L2-D11 and R133: the press is lost and no event comes. -/
theorem test_srst_loses_the_press : nextOf (exec (.srst 3) held) =
    some { State.resetWith (build6 1) with response := some .ack } := by decide

/-- L2-C3. -/
theorem test_reserved_sets_errOp :
    ((nextOf (exec (.reserved5 5) (State.resetWith (build6 1)))).map fun t => (t.response, statusWord t.config t.block)) =
      some (some .ack, 0x0120) := by decide

/-- The first step after reset runs a presented command. -/
theorem test_step_presented_command :
    (nextOf (Machine.step (State.reset.withFetchWord 8 0x20))).map (fun t => (t.response, t.inbox)) =
      some (some (.status 0x0880), []) := by decide

/-! ### The shared operations -/

/-- L2-S3 and L2-S5: the first of two signatures, a wrapped one, a near miss. -/
theorem test_scan :
    scan 8 (searchBuffer [3, 4, 2, 4, 3, 4, 2, 4]) = some 2 ∧ scan 6 (searchBuffer [4, 3, 4, 2, 4, 3]) = some 3 ∧
      scan 6 (searchBuffer [2, 4, 3, 0, 0, 0]) = none := by decide

/-- L1-2, step 2: the stale offset 5. -/
theorem test_stale_payload : extractPayload (build6 2) [1, 2, 3, 4, 5, 6] 5 = [4, 5] := by decide

/-- L2-P3. -/
theorem test_profile_bits :
    [0x00, 0x01, 0x02, 0x09, 0xFE, 0xFF].map (profilePressed .lsb) = [true, false, true, false, true, false] ∧
      [0x00, 0x01, 0x02, 0x09, 0xFE, 0xFF].map (profilePressed .nonzero) = [true, false, false, false, false, false] := by
  decide

/-- L1-4: an edge 49 ms after the press is rejected, one 50 ms after it accepted. -/
theorem test_debounce_boundary :
    let st : ButtonState := ⟨false, some 0, some 0, some 10⟩
    stepButton (build6 1) 0 st true 49 = (st, none) ∧
      stepButton (build6 1) 0 st true 50 = (⟨true, some 50, some 50, some 10⟩, none) := by decide

/-- L1-5: 299 is short, 300 long. -/
theorem test_long_boundary :
    let st : ButtonState := ⟨true, some 50, some 50, some 10⟩
    (stepButton (build6 1) 0 st false 349).2 = some ⟨0x00, 299⟩ ∧
      (stepButton (build6 1) 0 st false 350).2 = some ⟨0x10, 300⟩ := by decide

/-- L2-S8. -/
theorem test_time_regress : timeRegress held.config held.block 49 = true ∧ timeRegress held.config held.block 50 = false := by
  decide

/-- R72, R73: a text of several lines. -/
theorem test_assemble_text :
    assembleText (build8 1) "SRST ; start\n\nFRAME8 0, 70, 1, 0 @100\n.cmd 0x4A\nRDBTN next".toList =
      some [⟨0xF0, Vector.replicate 8 0, 0⟩, ⟨0x18, #v[2, 4, 3, 4, 0, 70, 1, 0], 100⟩, ⟨0x4A, Vector.replicate 8 0, 0⟩,
        ⟨0x39, Vector.replicate 8 0, 0⟩] := by decide

theorem test_reset_keeps_no_program : Machine.step State.reset = .next State.reset := rfl

/-! ### Witnesses: the hypotheses of the statements can be met -/

/-- `OpcodeMapSelectsTheCommand` and the encoding clauses of the per-command statements: a byte for each of the sixteen clauses. -/
theorem witness_masks :
    ∀ b ∈ [(0x0F : Byte), 0x1F, 0x2F, 0x3F, 0x4F, 0x5F, 0x6F, 0x7F, 0x8F, 0x9F, 0xAF, 0xBF, 0xCF, 0xDF, 0xEF, 0xFF],
      b &&& 0xF0 = b - 0x0F ∧ b.extractLsb' 0 4 = 0xF := by decide

/-- `DecodedTransactionsEncodeBack`. -/
theorem witness_chunk_byte : opField 0x18 = 1 := by decide

/-- `AssemblerWritesTheCommand`, each clause at the end of its range. -/
theorem witness_assembler :
    (15 ≤ 15 ∧ 2 ^ 64 - 1 < 2 ^ 64 ∧ [255, 0, 0, 0, 0, 0, 0, 255].length = min 15 8 ∧
      ∀ b ∈ [255, 0, 0, 0, 0, 0, 0, 255], b ≤ 255) ∧ (255 ≤ 255 ∧ 255 / 16 ≠ 1) ∧ (build6 0).len = 6 ∧ (build8 8).len = 8 := by
  decide

/-- `StepRunsTheDecodedCommand`, `ResetInputAndSrstSetResetValues`, `IdlePortChangesNothing`. -/
theorem witness_inputs (c : Command) :
    { held with inbox := [.command c] }.inbox = .command c :: [] ∧ { held with inbox := [.reset] }.inbox = .reset :: [] ∧
      held.inbox = [] := ⟨rfl, rfl, rfl⟩

/-- `BuildTakesExactlyTheParametersInRange`, the ends of the ranges. -/
theorem witness_build :
    (Config.build { frameLen := 6, nInputs := 0, debounceTicks := some 0, longTicks := some (2 ^ 64 - 1) }).isSome = true ∧
      (Config.build { frameLen := 8, nInputs := 8 }).isSome = true := by decide

/-- `RdbtnReadsOneButton`: no instance, absent, present, at the ends of each range. -/
theorem witness_rdbtn :
    10 ≤ (10#4).toNat ∧ 10 ≤ (15#4).toNat ∧ present (build6 7) (7#4).toNat = false ∧ present (build6 8) (9#4).toNat = false ∧
      present (build6 8) (7#4).toNat = true ∧ present (build8 0) (8#4).toNat = true ∧ present (build8 0) (9#4).toNat = true ∧
      present (build8 0) (0#4).toNat = false := by decide

/-- `ReservedOpcodesOnlySetErrOp`: the ends of the reserved range. -/
theorem witness_reserved : ((0x40 : Byte).extractLsb' 4 4).toNat = 4 ∧ ((0xE0 : Byte).extractLsb' 4 4).toNat = 14 ∧
    ((0x3F : Byte).extractLsb' 4 4).toNat = 3 ∧ ((0xF0 : Byte).extractLsb' 4 4).toNat = 15 := by decide

/-- Statements about any completing command: one of each of the sixteen completes from a state with button 0 Pressed. -/
theorem witness_all_complete :
    ∀ i ∈ [Instr.nop 0, .chunk 6 (frame6 0 0) 50, .rdstat 0, .rdbtn 0, .reserved4 0, .reserved5 0, .reserved6 0, .reserved7 0,
      .reserved8 0, .reserved9 0, .reservedA 0, .reservedB 0, .reservedC 0, .reservedD 0, .reservedE 0, .srst 0],
      (nextOf (exec i held)).isSome = true := by decide

/-- `OnlyATimeRegressIsRefused`: a full read one tick early. -/
theorem witness_time_regress : (6#4).toNat = held.config.len ∧ ¬NoTimeRegress held 49 :=
  ⟨by decide, fun h => absurd (h 0 (by decide) 50 (.inl (by decide))) (by decide)⟩

/-- The full-read statements: `n` = `L` with no regress, at the last legal time, in both variants. -/
theorem witness_full_read :
    (6#4).toNat = held.config.len ∧ NoTimeRegress held 50 ∧
      (8#4).toNat = (State.resetWith (build8 4)).config.len ∧ NoTimeRegress (State.resetWith (build8 4)) 0 :=
  ⟨by decide, noTimeRegress_iff.2 (by decide), by decide, noTimeRegress_iff.2 (by decide)⟩

/-- `OverlongReadIsAnArgumentError` and `ShortReadKeepsTheOffset`, the ends of both ranges. -/
theorem witness_lengths :
    held.config.len < (7#4).toNat ∧ (build8 0).len < (9#4).toNat ∧ (build8 0).len < (15#4).toNat ∧
      (0#4).toNat < held.config.len ∧ (5#4).toNat < held.config.len ∧ (7#4).toNat < (build8 0).len := by decide

/-- `UnusedChunkOperandsAreIgnored`: lanes that differ from index `n` on, with `n` full and short. -/
theorem witness_unused_lanes :
    (∀ k, k < min (6#4).toNat 8 → (frame6 1 2).toList.getD k 0 = (#v[2, 4, 3, 4, 1, 2, 9, 9] : Lanes).toList.getD k 0) ∧
      (5#4).toNat ≠ held.config.len := by decide

/-- `OffsetIsTheFirstSignatureOrStale`: position 0, and one of two. -/
theorem witness_first_signature :
    ringHasSig (build6 1) (frame6 0 0) 0 ∧ ringHasSig (build8 1) #v[2, 4, 3, 4, 2, 4, 3, 4] 0 ∧
      ringHasSig (build8 1) #v[2, 4, 3, 4, 2, 4, 3, 4] 4 := by decide

/-- `OffsetIsTheFirstSignatureOrStale`: the last position, wrapped, and none before it. -/
theorem witness_last_signature :
    foundAt (build8 1) #v[4, 3, 4, 1, 2, 3, 4, 2] = some 7 ∧ ringHasSig (build8 1) #v[4, 3, 4, 1, 2, 3, 4, 2] 7 ∧
      ∀ q < 7, ¬ringHasSig (build8 1) #v[4, 3, 4, 1, 2, 3, 4, 2] q :=
  ⟨by decide, ((foundAt_eq_some_iff _ _).1 (by decide)).2⟩

/-- `OffsetIsTheFirstSignatureOrStale`: no signature at any position. -/
theorem witness_no_signature : ∀ p < (build8 1).len, ¬ringHasSig (build8 1) noSig p :=
  (foundAt_eq_none_iff _ _).1 (by decide)

/-- `PayloadIsDecodedBehindTheOffset`: both variants and both profile modes. -/
theorem witness_decoder : (build6 1).len = 6 ∧ (build8 1).len = 8 ∧ (build8 1).profBitMode = .lsb ∧
    ({ build8 1 with profBitMode := .nonzero } : Config).profBitMode = .nonzero := by decide

/-- `RotatedFrameYieldsItsPayload`: a frame read from its last byte, and one whose payload repeats the signature, from byte 4. -/
theorem witness_rotation :
    (∀ i < 8, (#v[0, 2, 4, 3, 4, 0x11, 22, 1] : Lanes).toList.getD i 0 = [2, 4, 3, 4, 0x11, 22, 1, 0].getD ((i + 7) % 8) 0) ∧
      (∀ i < 8, (#v[2, 4, 3, 4, 2, 4, 3, 4] : Lanes).toList.getD i 0 = [2, 4, 3, 4, 2, 4, 3, 4].getD ((i + 4) % 8) 0) := by
  decide

/-- `WindowOverTwoFramesMixesOnlyTheirFields`: L2-S4. -/
theorem witness_window :
    (∀ i < 8, (#v[1, 1, 2, 4, 3, 4, 0x02, 20] : Lanes).toList.getD i 0 =
      if 6 + i < 8 then [2, 4, 3, 4, 0x01, 10, 1, 1].getD (6 + i) 0 else [2, 4, 3, 4, 0x02, 20, 0, 1].getD (6 + i - 8) 0) ∧
    extractPayload (build8 0) [1, 1, 2, 4, 3, 4, 0x02, 20] 2 = [0x02, 20, 1, 1] := by decide

/-- `InstancesFollowTheTransitionTable`: every row of R125 for button 0, the two debounce rows at their common boundary. -/
theorem witness_transitions :
    present (build6 1) 0 = true ∧ present (build6 1) 1 = false ∧
      (released.block.btn[0].level = false ∧ released.block.btn[0].lastDebounceTime = some 0 ∧
        (0#64).toNat + (build6 1).debounceTicks.toNat ≤ (50#64).toNat ∧
        (49#64).toNat < (0#64).toNat + (build6 1).debounceTicks.toNat) ∧
      ((State.resetWith (build6 1)).block.btn[0].lastDebounceTime = none) ∧ held.block.btn[0].level = true ∧
      (frameAfter (build6 1) (frame6 1 0) 50 released.block).rawBit 0 = true ∧
      (frameAfter (build6 1) (frame6 0 0) 50 held.block).rawBit 0 = false := by decide

/-- `ReleasesReportDurationAndClass`: a Pressed present button whose bit is 0. -/
theorem witness_release : present held.config 0 = true ∧ held.block.btn[0].level = true ∧
    held.block.btn[0].pressedTime = some 50 ∧ (frameAfter held.config (frame6 0 0) 350 held.block).rawBit 0 = false := by
  decide

/-- `LanesAreIndependent`: two blocks that differ outside lane 0, and two different chunks with the same bit 0. -/
theorem witness_lanes :
    let s := State.resetWith (build8 2)
    let s' := { s with block := { s.block with syncOk := true, btn := s.block.btn.set 1 ⟨true, some 3, some 3, none⟩ } }
    (nextOf (exec (.chunk 8 #v[2, 4, 3, 4, 1, 0, 1, 1] 9) s)).isSome = true ∧
      (nextOf (exec (.chunk 8 #v[2, 4, 3, 4, 3, 7, 0, 1] 9) s')).isSome = true ∧
      s'.block.btn[0] = s.block.btn[0] ∧ s'.block.btn[1] ≠ s.block.btn[1] ∧
      (frameAfter (build8 2) #v[2, 4, 3, 4, 3, 7, 0, 1] 9 s'.block).rawBit 0 =
        (frameAfter (build8 2) #v[2, 4, 3, 4, 1, 0, 1, 1] 9 s.block).rawBit 0 := by decide

/-- `HeldBounceIsAcceptedAtTheFirstLateSample`: the samples of R123. -/
theorem witness_held_bounce :
    released.block.btn[0].level = false ∧ released.block.btn[0].lastDebounceTime = some 0 ∧
      (∀ t ∈ [(10 : Time), 40, 49], 0#64 ≤ t ∧ t.toNat < (0#64).toNat + (build6 1).debounceTicks.toNat) ∧
      (0#64).toNat + (build6 1).debounceTicks.toNat ≤ (60#64).toNat :=
  ⟨by decide, by decide, by simp [build6], by simp [build6]⟩

/-- `EveryStepKeepsAGoodState`: a good state with a release waiting. -/
theorem witness_good_step :
    { held with inbox := [.command ⟨0x16, frame6 0 0, 350⟩] }.Inv ∧
      (nextOf (Machine.step { held with inbox := [.command ⟨0x16, frame6 0 0, 350⟩] })).isSome = true :=
  ⟨⟨by decide, by decide⟩, by decide⟩

/-- The inputs of a short run: a press and its release. -/
def pressAndRelease : List HostInput := [.command ⟨0x16, frame6 1 0, 10⟩, .command ⟨0x16, frame6 0 0, 320⟩]

/-- `ReachedEventsAreMeasuredFromARecordedPress`: a reached state in which the waiting release reports an event (L1-9). -/
theorem witness_reached_event :
    ∃ s, Reachable s ∧ responseOf (exec (.chunk 6 (frame6 0 0) 320) s) = some (.frameOut ⟨0x03, 0, 0, 0, [⟨0x10, 310⟩]⟩) := by
  refine ⟨{ withButton0 (build6 1) ⟨true, some 10, some 10, none⟩ with
    block := { (withButton0 (build6 1) ⟨true, some 10, some 10, none⟩).block with syncOk := true },
    inbox := [.command ⟨0x16, frame6 0 0, 320⟩], response := some (.frameOut ⟨0x03, 1, 0, 0, []⟩) },
    .step _ _ (.reset (build6 1) pressAndRelease) (eq_next_of_nextOf (by decide)), by decide⟩

/-- `AcceptedPressesAreSpacedAlongRuns`: a run with no reset that accepts a second press. -/
theorem witness_spaced_run :
    present released.config 0 = true ∧ (∀ x ∈ [HostInput.command ⟨0x16, frame6 1 0, 50⟩], x.resets = false) ∧
      (nextOf (runSteps 1 { released with inbox := [.command ⟨0x16, frame6 1 0, 50⟩] })).map (·.block.btn[0].lastDebounceTime) =
        some (some 50) ∧ released.block.btn[0].lastDebounceTime = some 0 := by decide

end Sys2Proof.Tests
end

/-!
PROOFS of the family 00_scope: which selectors are present (R18), and when a command is refused (R17, R157).
-/

namespace Sys2Proof.Machine

/-! ### The selectors -/

theorem present_of_lt_eight (cfg : Config) {s : Nat} (h : s < 8) : present cfg s = true ↔ s < cfg.nInputs.val := by
  simp [present, h]

theorem present_of_eight_le (cfg : Config) {s : Nat} (h : 8 ≤ s) : present cfg s = true ↔ s < 10 ∧ cfg.len = 8 := by
  simp [present, Nat.not_lt.2 h, len_eq_eight_iff]

/-- Settles O11: selectors below 8 depend on `N_INPUTS`, the two from 8 on `L`. -/
theorem selectorsArePresentByTheBuild : Obligations.SelectorsArePresentByTheBuild := by
  intro cfg s
  rcases Nat.lt_or_ge s 8 with h | h
  · rw [present_of_lt_eight cfg h]
    omega
  · rw [present_of_eight_le cfg h]
    omega

/-! ### Completion and refusal -/

/-- The one condition under which the spec refuses a command: a full read with `now` below a stored time (R157). -/
def RegressingFullRead (i : Instr) (s : State) : Prop :=
  ∃ n d now, i = .chunk n d now ∧ n.toNat = s.config.len ∧ ¬NoTimeRegress s now

/-- A CHUNK completes unless it is a full read with a time regress (R80, R157). -/
theorem execChunk_completes {n : BitVec 4} (d : Lanes) {now : Time} {s : State}
    (h : n.toNat = s.config.len → NoTimeRegress s now) : ∃ b r, execChunk n d now s = complete b r s := by
  rcases Nat.lt_trichotomy n.toNat s.config.len with hshort | hfull | hlong
  · exact ⟨_, _, execChunk_short hshort⟩
  · rw [execChunk_full hfull]
    exact ⟨_, _, fullRead_of_not_timeRegress (noTimeRegress_iff.1 (h hfull))⟩
  · exact ⟨_, _, execChunk_overlong hlong⟩

/-- Every command but a regressing full read completes with one response record (R17, R135). -/
theorem exec_completes {i : Instr} {s : State} (h : ¬RegressingFullRead i s) :
    ∃ b r, exec i s = complete b r s := by
  cases i with
  | chunk n d now => exact execChunk_completes d fun hn => by_contra fun hr => h ⟨n, d, now, rfl, hn, hr⟩
  | rdbtn sel =>
    obtain ⟨b, r, hb⟩ := execRdbtn_completes sel s
    exact ⟨b, .btnRec r, hb⟩
  | nop _ | rdstat _ | srst _ | reserved4 _ | reserved5 _ | reserved6 _ | reserved7 _ | reserved8 _ | reserved9 _
  | reservedA _ | reservedB _ | reservedC _ | reservedD _ | reservedE _ => exact ⟨_, _, rfl⟩

/-- A regressing full read is refused (R157). -/
theorem exec_refused {i : Instr} {s : State} (h : RegressingFullRead i s) : exec i s = .refused .timeRegress := by
  obtain ⟨n, d, now, rfl, hn, hr⟩ := h
  rw [noTimeRegress_iff, Bool.not_eq_false] at hr
  exact (execChunk_full hn).trans (fullRead_of_timeRegress hr)

/-- Settles O19: the two outcomes, split on whether the command is a full read with a time regress. -/
theorem onlyATimeRegressIsRefused : Obligations.OnlyATimeRegressIsRefused := by
  intro i s
  change _ ∧ (_ ↔ RegressingFullRead i s)
  by_cases h : RegressingFullRead i s
  · have hex := exec_refused h
    exact ⟨.inr hex, iff_of_true hex h⟩
  · obtain ⟨b, r, hex⟩ := exec_completes h
    exact ⟨.inl ⟨_, r, hex, rfl⟩, iff_of_false (hex ▸ complete_ne_refused) h⟩

end Sys2Proof.Machine

/-!
PROOFS of the family 10_state: what each command leaves in the block, and from it the sticky error flags (R24) and the two status
bits of the last read (R22, R23).
-/

namespace Sys2Proof.Machine

/-! ### The opcode classes -/

/-- The encoder writes the row's opcode for every command (R60, R61). -/
@[simp] theorem opField_encode (i : Instr) : opField (encode i).byte = Laws.CommandByte.opcode i := by
  cases i <;> exact opField_commandByte _ _

/-- A command of one of the reserved opcodes 0x4 to 0xE (R65). -/
def IsReserved (i : Instr) : Prop := 4 ≤ (opField (encode i).byte).toNat ∧ (opField (encode i).byte).toNat ≤ 14

/-- Which commands are reserved, read off their opcode rows (R61, R65). -/
theorem isReserved_iff (i : Instr) :
    IsReserved i ↔ 4 ≤ (Laws.CommandByte.opcode i).toNat ∧ (Laws.CommandByte.opcode i).toNat ≤ 14 := by
  rw [IsReserved, opField_encode]

/-! ### What a command leaves in the block -/

/-- `BlockChange s i b`: the command `i`, completed from `s`, leaves the block `b`. One constructor per way a command completes. -/
inductive BlockChange (s : State) : Instr → Block → Prop where
  | nop (arg : BitVec 4) : BlockChange s (.nop arg) s.block
  | overlongRead {n : BitVec 4} (d : Lanes) (now : Time) (hn : s.config.len < n.toNat) :
      BlockChange s (.chunk n d now) (flagErrArg s.block)
  | shortRead {n : BitVec 4} (d : Lanes) (now : Time) (hn : n.toNat < s.config.len) :
      BlockChange s (.chunk n d now) (markShortRead s.block)
  | fullRead {n : BitVec 4} (d : Lanes) (now : Time) (hn : n.toNat = s.config.len) :
      BlockChange s (.chunk n d now) (fullReadEffect s.config d now s.block).1
  | rdstat (arg : BitVec 4) : BlockChange s (.rdstat arg) s.block
  | rdbtn {sel : BitVec 4} (hsel : sel.toNat < 10) : BlockChange s (.rdbtn sel) s.block
  | rdbtnNoInstance {sel : BitVec 4} (hsel : 10 ≤ sel.toNat) : BlockChange s (.rdbtn sel) (flagErrArg s.block)
  | reserved {i : Instr} (hi : IsReserved i) : BlockChange s i (flagErrOp s.block)
  | srst (arg : BitVec 4) : BlockChange s (.srst arg) Block.reset

/-- Everything a command can do to the block when it answers a next state. -/
theorem exec_blockChange {i : Instr} {s t : State} (h : exec i s = .next t) : BlockChange s i t.block := by
  cases i with
  | chunk n d now =>
    rcases execChunk_cases h with ⟨hn, rfl⟩ | ⟨hn, rfl⟩ | ⟨hn, -, rfl⟩
    · exact .overlongRead d now hn
    · exact .shortRead d now hn
    · exact .fullRead d now hn
  | rdbtn sel =>
    obtain ⟨r, ⟨hsel, rfl⟩ | ⟨hsel, rfl⟩⟩ := execRdbtn_cases h
    · exact .rdbtn hsel
    · exact .rdbtnNoInstance hsel
  | nop arg =>
    obtain rfl := complete_eq_next_iff.1 h
    exact .nop arg
  | rdstat arg =>
    obtain rfl := complete_eq_next_iff.1 h
    exact .rdstat arg
  | srst arg =>
    obtain rfl := complete_eq_next_iff.1 h
    exact .srst arg
  | reserved4 _ | reserved5 _ | reserved6 _ | reserved7 _ | reserved8 _ | reserved9 _ | reservedA _ | reservedB _
  | reservedC _ | reservedD _ | reservedE _ =>
    obtain rfl := complete_eq_next_iff.1 h
    exact .reserved (by simp [isReserved_iff, Laws.CommandByte.opcode])

/-- SRST leaves the reset block (R133). -/
theorem BlockChange.eq_reset {s : State} {arg : BitVec 4} {b : Block} (h : BlockChange s (.srst arg) b) :
    b = Block.reset := by
  cases h with
  | srst => rfl
  | reserved hi => simp [isReserved_iff, Laws.CommandByte.opcode] at hi

/-- RDSTAT completes with the status word and changes nothing else (R131). -/
theorem exec_rdstat (arg : BitVec 4) (s : State) :
    exec (.rdstat arg) s = .next { s with response := some (.status (statusWord s.config s.block)) } := rfl

/-! ### The sticky error flags -/

/-- The argument errors of R24: a CHUNK with `n` above `L`, and an RDBTN whose selector is 10 or above. -/
def IsArgError (cfg : Config) (i : Instr) : Prop :=
  (∃ n d now, i = .chunk n d now ∧ cfg.len < n.toNat) ∨ ∃ sel, i = .rdbtn sel ∧ 10 ≤ sel.toNat

@[simp] theorem isArgError_chunk (cfg : Config) (n : BitVec 4) (d : Lanes) (now : Time) :
    IsArgError cfg (.chunk n d now) ↔ cfg.len < n.toNat := by
  simp [IsArgError]

@[simp] theorem isArgError_rdbtn (cfg : Config) (sel : BitVec 4) : IsArgError cfg (.rdbtn sel) ↔ 10 ≤ sel.toNat := by
  simp [IsArgError]

/-- A command that is neither CHUNK nor RDBTN has no argument error. -/
theorem not_isArgError {cfg : Config} {i : Instr} (hchunk : ∀ n d now, i ≠ .chunk n d now) (hrdbtn : ∀ sel, i ≠ .rdbtn sel) :
    ¬IsArgError cfg i := by
  rintro (⟨n, d, now, hi, -⟩ | ⟨sel, hi, -⟩)
  · exact hchunk n d now hi
  · exact hrdbtn sel hi

/-- A reserved command reads no argument, so it has no argument error (R64). -/
theorem IsReserved.not_isArgError {cfg : Config} {i : Instr} (hi : IsReserved i) : ¬IsArgError cfg i := by
  rintro (⟨n, d, now, rfl, -⟩ | ⟨sel, rfl, -⟩)
  · simp [isReserved_iff, Laws.CommandByte.opcode] at hi
  · simp [isReserved_iff, Laws.CommandByte.opcode] at hi

@[simp] theorem fullReadEffect_errOp (cfg : Config) (d : Lanes) (now : Time) (b : Block) :
    (fullReadEffect cfg d now b).1.errOp = b.errOp := rfl

@[simp] theorem fullReadEffect_errArg (cfg : Config) (d : Lanes) (now : Time) (b : Block) :
    (fullReadEffect cfg d now b).1.errArg = b.errArg := rfl

section

variable {s : State} {i : Instr} {b : Block}

/-- Only a reserved opcode sets `ERR_OP`, and only a reset clears it (R24). -/
theorem BlockChange.errOp_iff (h : BlockChange s i b) (hi : ∀ arg, i ≠ .srst arg) :
    b.errOp = true ↔ s.block.errOp = true ∨ IsReserved i := by
  cases h with
  | srst arg => exact absurd rfl (hi arg)
  | reserved hres => simp [hres]
  | nop | overlongRead | shortRead | fullRead | rdstat | rdbtn | rdbtnNoInstance =>
    simp [isReserved_iff, Laws.CommandByte.opcode]

/-- Only an argument error sets `ERR_ARG`, and only a reset clears it (R24). -/
theorem BlockChange.errArg_iff (h : BlockChange s i b) (hi : ∀ arg, i ≠ .srst arg) :
    b.errArg = true ↔ s.block.errArg = true ∨ IsArgError s.config i := by
  cases h with
  | srst arg => exact absurd rfl (hi arg)
  | overlongRead d now hn => simp [hn]
  | shortRead d now hn => simp [Nat.le_of_lt hn]
  | fullRead d now hn => simp [hn]
  | rdbtn hsel => simp [hsel]
  | rdbtnNoInstance hsel => simp [hsel]
  | reserved hres => simp [hres.not_isArgError]
  | nop | rdstat => simp [not_isArgError]

end

/-- Settles O21: the flags of the block each command leaves, and the two bits of the status word. -/
theorem errorFlagsRecordTheirConditions : Obligations.ErrorFlagsRecordTheirConditions := by
  refine ⟨fun i s t h => ⟨?_, fun hi => ?_⟩, fun cfg => ⟨rfl, rfl⟩, fun arg s => ?_⟩
  · rintro ⟨arg, rfl⟩
    simp [(exec_blockChange h).eq_reset]
  · exact ⟨(exec_blockChange h).errOp_iff hi, (exec_blockChange h).errArg_iff hi⟩
  · obtain ⟨-, -, hop, harg, -⟩ := statusWord_bits s.config s.block
    exact ⟨_, exec_rdstat arg s, hop, harg⟩

/-! ### The status of the last read -/

/-- The scan of a full read finds the signature exactly if some ring position has it (R84). -/
theorem foundAt_isSome_iff (cfg : Config) (d : Lanes) :
    (foundAt cfg d).isSome = true ↔ ∃ p < cfg.len, ringHasSig cfg d p := by
  rw [Option.isSome_iff_ne_none, ne_eq, foundAt_eq_none_iff]
  push Not
  rfl

@[simp] theorem fullReadEffect_syncOk (cfg : Config) (d : Lanes) (now : Time) (b : Block) :
    (fullReadEffect cfg d now b).1.syncOk = (foundAt cfg d).isSome := rfl

@[simp] theorem fullReadEffect_shortRd (cfg : Config) (d : Lanes) (now : Time) (b : Block) :
    (fullReadEffect cfg d now b).1.shortRd = false := rfl

section

variable {s : State} {i : Instr} {b : Block} {n : BitVec 4} {d : Lanes} {now : Time}

/-- What a CHUNK leaves in the block, by its length class (R80 to R82). -/
theorem BlockChange.chunk_cases (h : BlockChange s (.chunk n d now) b) :
    (s.config.len < n.toNat ∧ b = flagErrArg s.block) ∨ (n.toNat < s.config.len ∧ b = markShortRead s.block) ∨
      (n.toNat = s.config.len ∧ b = (fullReadEffect s.config d now s.block).1) := by
  cases h with
  | overlongRead _ _ hn => exact .inl ⟨hn, rfl⟩
  | shortRead _ _ hn => exact .inr (.inl ⟨hn, rfl⟩)
  | fullRead _ _ hn => exact .inr (.inr ⟨hn, rfl⟩)
  | reserved hi => simp [isReserved_iff, Laws.CommandByte.opcode] at hi

/-- A command that is neither CHUNK nor SRST keeps both status bits (R22, R23). -/
theorem BlockChange.sync_unchanged (h : BlockChange s i b) (hchunk : ∀ n d now, i ≠ .chunk n d now)
    (hsrst : ∀ arg, i ≠ .srst arg) : b.shortRd = s.block.shortRd ∧ b.syncOk = s.block.syncOk := by
  cases h with
  | overlongRead d now | shortRead d now | fullRead d now => exact absurd rfl (hchunk _ d now)
  | srst arg => exact absurd rfl (hsrst arg)
  | nop | rdstat | rdbtn | rdbtnNoInstance | reserved => exact ⟨rfl, rfl⟩

end

/-- Settles O22: the status bits of the block each command leaves, CHUNK by its length class, and the two bits of the status
word. -/
theorem syncStatusFollowsTheLastRead : Obligations.SyncStatusFollowsTheLastRead := by
  refine ⟨fun i s t h => ⟨?_, ?_, (exec_blockChange h).sync_unchanged⟩, fun cfg => ⟨rfl, rfl⟩, fun arg s => ?_⟩
  · rintro n d now rfl
    rcases (exec_blockChange h).chunk_cases with ⟨hn, hb⟩ | ⟨hn, hb⟩ | ⟨hn, hb⟩ <;> rw [hb]
    · exact ⟨fun hfull => by omega, fun hshort => by omega, fun _ => ⟨rfl, rfl⟩⟩
    · exact ⟨fun hfull => by omega, fun _ => ⟨rfl, rfl⟩, fun hlong => by omega⟩
    · exact ⟨fun _ => ⟨rfl, foundAt_isSome_iff s.config d⟩, fun hshort => by omega, fun hlong => by omega⟩
  · rintro ⟨arg, rfl⟩
    simp [(exec_blockChange h).eq_reset]
  · obtain ⟨hsync, hshort, -⟩ := statusWord_bits s.config s.block
    exact ⟨_, exec_rdstat arg s, hsync, hshort⟩

end Sys2Proof.Machine

/-!
PROOFS of the family 30_encoding: the opcode map by mask and match (R61), and the assembler's statements and pseudo-instructions
(R72, R73).
-/

namespace Sys2Proof.Machine

/-! ### The opcode map -/

/-- A byte that meets the match value of a row selects that row of the opcode map (R61). -/
theorem decode_of_mask (op : BitVec 4) {c : Command} (h : c.byte &&& 0xF0 = op ++ 0#4) :
    decode c = (opcodeMap[op.toNat]'op.isLt) c :=
  decode_of_opField ((mask_eq_iff c.byte op).1 h)

/-- Settles O3: each match value is an opcode above four zero bits, so its clause is that row of the opcode map. -/
theorem opcodeMapSelectsTheCommand : Obligations.OpcodeMapSelectsTheCommand := by
  rintro c _ rfl
  exact ⟨decode_of_mask 0x0, decode_of_mask 0x1, decode_of_mask 0x2, decode_of_mask 0x3, decode_of_mask 0x4,
    decode_of_mask 0x5, decode_of_mask 0x6, decode_of_mask 0x7, decode_of_mask 0x8, decode_of_mask 0x9,
    decode_of_mask 0xA, decode_of_mask 0xB, decode_of_mask 0xC, decode_of_mask 0xD, decode_of_mask 0xE,
    decode_of_mask 0xF⟩

/-! ### The assembler -/

theorem assemble_of_wf {cfg : Config} {a : Asm} (h : a.wf cfg = true) : assemble cfg a = some a.expand.transaction :=
  if_pos h

/-- The ranges of a CHUNK statement (R72). -/
theorem chunk_wf_iff (cfg : Config) (n t : Nat) (bytes : List Nat) :
    (Asm.chunk n t bytes).wf cfg = true ↔ n ≤ 15 ∧ t < 2 ^ 64 ∧ bytes.length = min n 8 ∧ ∀ b ∈ bytes, b ≤ 255 := by
  simp [Asm.wf, Asm.fitsBuild, Asm.expand, Asm.inRange, and_assoc]

/-- The range of an RDBTN statement (R72). -/
theorem rdbtn_wf_iff (cfg : Config) (sel : Nat) : (Asm.rdbtn sel).wf cfg = true ↔ sel ≤ 15 := by
  simp [Asm.wf, Asm.fitsBuild, Asm.expand, Asm.inRange]

/-- The range of a `.cmd` statement (R72). -/
theorem cmd_wf_iff (cfg : Config) (b : Nat) : (Asm.cmd b).wf cfg = true ↔ b ≤ 255 ∧ b / 16 ≠ 1 := by
  simp [Asm.wf, Asm.fitsBuild, Asm.expand, Asm.inRange]

/-- Lane `i` holds the listed byte `i`, and 0 where none is listed (R72). -/
theorem lanesOfList_getD (bytes : List Nat) {i : Nat} (h : i < 8) :
    (lanesOfList bytes).toList.getD i 0 = BitVec.ofNat 8 (bytes.getD i 0) := by
  interval_cases i <;> rfl

/-- A listed byte in its range is the value of its lane (R72). -/
theorem lanesOfList_toNat {bytes : List Nat} (hlen : bytes.length ≤ 8) (hbytes : ∀ b ∈ bytes, b ≤ 255) {i : Nat}
    (hi : i < bytes.length) : ((lanesOfList bytes).toList.getD i 0).toNat = bytes.getD i 0 := by
  have hb : bytes.getD i 0 ≤ 255 := by
    rw [List.getD_eq_getElem _ _ hi]
    exact hbytes _ (List.getElem_mem hi)
  rw [lanesOfList_getD bytes (by omega), BitVec.toNat_ofNat, Nat.mod_eq_of_lt (by omega)]

/-- Only a pseudo-instruction has a condition on the build, and no expansion is one (R73). -/
@[simp] theorem expand_fitsBuild (cfg : Config) (a : Asm) : a.expand.fitsBuild cfg = true := by
  cases a <;> rfl

@[simp] theorem expand_expand (a : Asm) : a.expand.expand = a.expand := by
  cases a <;> rfl

/-- A pseudo-instruction assembles as its expansion where the build allows it (R73). -/
theorem assemble_expand {cfg : Config} {a : Asm} (h : a.fitsBuild cfg = true) :
    assemble cfg a = assemble cfg a.expand := by
  simp [assemble, Asm.wf, h]

theorem len_eq_six_iff (cfg : Config) : cfg.len = 6 ↔ cfg.frameLen = .six := by
  cases h : cfg.frameLen <;> simp [Config.len, FrameLen.bytes, h]

/-- A CHUNK statement in its ranges gives its byte, its time and its listed lanes (R72). -/
theorem assemble_chunk (cfg : Config) {n t : Nat} {bytes : List Nat} (hn : n ≤ 15) (ht : t < 2 ^ 64)
    (hlen : bytes.length = min n 8) (hbytes : ∀ b ∈ bytes, b ≤ 255) :
    ∃ c, assemble cfg (.chunk n t bytes) = some c ∧ c.byte = 0x10 ||| BitVec.ofNat 8 n ∧ c.now.toNat = t ∧
      ∀ i, i < bytes.length → (c.lanes.toList.getD i 0).toNat = bytes.getD i 0 :=
  ⟨_, assemble_of_wf ((chunk_wf_iff cfg n t bytes).2 ⟨hn, ht, hlen, hbytes⟩), rfl,
    (BitVec.toNat_ofNat t 64).trans (Nat.mod_eq_of_lt ht), fun _ hi => lanesOfList_toNat (by omega) hbytes hi⟩

/-- Settles O5: the statements of R72 by their ranges, the pseudo-instructions of R73 by their expansions. -/
theorem assemblerWritesTheCommand : Obligations.AssemblerWritesTheCommand := by
  refine fun cfg => ⟨⟨rfl, rfl, rfl⟩, fun n t bytes hn ht hlen hbytes => assemble_chunk cfg hn ht hlen hbytes,
    fun sel hsel => ?_, fun b hb hchunk => ?_, fun c p t hl => ?_, fun c p rp rn t hl => ?_,
    assemble_expand rfl, assemble_expand rfl, assemble_expand rfl⟩
  · rw [assemble_of_wf ((rdbtn_wf_iff cfg sel).2 hsel)]
    rfl
  · rw [assemble_of_wf ((cmd_wf_iff cfg b).2 ⟨hb, hchunk⟩)]
    rfl
  · exact assemble_expand (decide_eq_true ((len_eq_six_iff cfg).1 hl))
  · exact assemble_expand (decide_eq_true ((len_eq_eight_iff cfg).1 hl))

end Sys2Proof.Machine

/-!
PROOFS of the family 40_frame_sync: the reads that decode no frame (R81, R82), and the offset a full read leaves (R84, R85).
-/

namespace Sys2Proof.Machine

/-! ### Reads that decode no frame -/

/-- A CHUNK with `n` above `L` flags `ERR_ARG` and answers a FRAME_OUT without a frame (R81). -/
theorem exec_overlongRead {n : BitVec 4} {d : Lanes} {now : Time} {s : State} (hn : s.config.len < n.toNat) :
    exec (.chunk n d now) s =
      .next { s with block := flagErrArg s.block, response := some (noFrame s.block) } := execChunk_overlong hn

/-- A CHUNK with `n` below `L` marks the short read and answers a FRAME_OUT without a frame (R82). -/
theorem exec_shortRead {n : BitVec 4} {d : Lanes} {now : Time} {s : State} (hn : n.toNat < s.config.len) :
    exec (.chunk n d now) s =
      .next { s with block := markShortRead s.block, response := some (noFrame s.block) } := execChunk_short hn

/-- Settles O25: the overlong arm of CHUNK, and the fields of the `FLAGS` byte it answers. -/
theorem overlongReadIsAnArgumentError : Obligations.OverlongReadIsAnArgumentError :=
  fun _ _ _ s hn => ⟨frameFlags false false s.block.lastOffset, exec_overlongRead hn, frameFlags_fields _ _ _⟩

/-- Settles O26: the short arm of CHUNK, and the fields of the `FLAGS` byte it answers. -/
theorem shortReadKeepsTheOffset : Obligations.ShortReadKeepsTheOffset :=
  fun _ _ _ s hn => ⟨frameFlags false false s.block.lastOffset, exec_shortRead hn, frameFlags_fields _ _ _⟩

/-! ### The offset of a full read -/

/-- Settles O29: the scan finds the least ring position with the signature or none, and offset tracking follows it. -/
theorem offsetIsTheFirstSignatureOrStale : Obligations.OffsetIsTheFirstSignatureOrStale := by
  intro n d now s hn hnow
  refine ⟨_, exec_fullRead hn hnow, rfl, fun p hp hsig hleast => ?_, fun hnone => ?_⟩
  · have hfound : foundAt s.config d = some p := (foundAt_eq_some_iff s.config d).2 ⟨hp, hsig, hleast⟩
    exact ⟨offsetAfter_of_found s.config d s.block hfound, by simp [hfound]⟩
  · have hfound : foundAt s.config d = none := (foundAt_eq_none_iff s.config d).2 hnone
    exact ⟨offsetAfter_of_not_found s.config d s.block hfound, by simp [hfound]⟩

end Sys2Proof.Machine

/-!
PROOFS of the family 41_payload_decode: the fields of the FRAME_OUT of a full read, as ring bytes behind the offset it leaves
(R103 to R107).
-/

namespace Sys2Proof.Machine

/-! ### One profile byte -/

/-- Under `LSB` a profile button is pressed exactly if bit 0 of its byte is 0 (R104, R105). -/
theorem profilePressed_lsb (b : Byte) : profilePressed .lsb b = !b.getLsbD 0 := rfl

/-- Under `NONZERO` a profile button is pressed exactly if its byte is 0 (R104, R105). -/
theorem profilePressed_nonzero (b : Byte) : profilePressed .nonzero b = decide (b = 0) := by
  simp [profilePressed, rawProfileBit]

/-! ### The fields of the response -/

section

variable (cfg : Config) (d : Lanes) (now : Time) (b : Block)

theorem frameAfter_btn : (frameAfter cfg d now b).btn = ringByte cfg d ((offsetAfter cfg d b).toNat + 4) :=
  decodeAt_btn cfg d _

theorem frameAfter_pot : (frameAfter cfg d now b).pot = ringByte cfg d ((offsetAfter cfg d b).toNat + 5) :=
  decodeAt_pot cfg d _

theorem frameAfter_prof : (frameAfter cfg d now b).prof = (decodedBy cfg d b).prof.setWidth 8 := rfl

/-- The six high bits of `PROF` are 0 in both variants. -/
theorem frameAfter_prof_high : (frameAfter cfg d now b).prof.extractLsb' 2 6 = 0 := by
  have key : ∀ x : BitVec 2, (x.setWidth 8).extractLsb' 2 6 = 0 := by decide
  exact key _

variable {cfg}

/-- A 6-byte frame has no profile bytes, so its `PROF` is 0 (R107). -/
theorem frameAfter_prof_six (h : cfg.len = 6) : (frameAfter cfg d now b).prof = 0 := by
  rw [frameAfter_prof, decodedBy, decodePayload_prof_six ((len_eq_six_iff cfg).1 h)]
  rfl

/-- In an 8-byte frame, bit `k` of `PROF` is the pressed bit of the ring byte `6 + k` behind the offset (R106). -/
theorem frameAfter_prof_eight (h : cfg.len = 8) {k : Nat} (hk : k < 2) :
    (frameAfter cfg d now b).prof.getLsbD k =
      profilePressed cfg.profBitMode (ringByte cfg d ((offsetAfter cfg d b).toNat + 6 + k)) := by
  rw [frameAfter_prof, BitVec.getLsbD_setWidth, decide_eq_true (by omega : k < 8), Bool.true_and, decodedBy,
    decodeAt_prof_eight ((len_eq_eight_iff cfg).1 h)]
  match k, hk with
  | 0, _ => exact profileBits_prev _ _ _
  | 1, _ => exact profileBits_next _ _ _

end

/-- Settles O30: the response of a full read field by field, the profile bits by the bit mode. -/
theorem payloadIsDecodedBehindTheOffset : Obligations.PayloadIsDecodedBehindTheOffset := by
  intro n d now s hn hnow
  refine ⟨_, _, exec_fullRead hn hnow, rfl, frameAfter_btn .., frameAfter_pot .., frameAfter_prof_six d now s.block,
    fun hlen => ⟨frameAfter_prof_high .., fun k hk => ⟨fun hmode => ?_, fun hmode => ?_⟩⟩⟩
  · rw [frameAfter_prof_eight d now s.block hlen hk, hmode, profilePressed_lsb]
  · rw [frameAfter_prof_eight d now s.block hlen hk, hmode, profilePressed_nonzero]

end Sys2Proof.Machine

/-!
PROOFS of the family 42_debounce: the transition table of a present button (R111 to R114), the event a release reports (R115 to
R117), and the order and number of the events of one full read (R119, R121).
-/

namespace Sys2Proof.Machine

/-! ### A press edge -/

theorem pressAccepted_of_never (cfg : Config) {st : ButtonState} (now : Time) (h : st.lastDebounceTime = none) :
    pressAccepted cfg st now = true := by
  simp [pressAccepted, h]

/-- The debounce comparison on numbers: inclusive, and exact where the stored time is not after `now` (R15, R111, R112). -/
theorem pressAccepted_iff (cfg : Config) {st : ButtonState} {now e : Time} (h : st.lastDebounceTime = some e)
    (hle : e ≤ now) : pressAccepted cfg st now = true ↔ e.toNat + cfg.debounceTicks.toNat ≤ now.toNat := by
  have hsub := sub_toNat_of_le hle
  simp only [pressAccepted, h, decide_eq_true_eq, BitVec.le_def]
  omega

/-- An accepted press writes the level and both press times (R111). -/
theorem stepButton_accepted (cfg : Config) (s : Nat) {st : ButtonState} {now : Time} (hl : st.level = false)
    (ha : pressAccepted cfg st now = true) :
    (stepButton cfg s st true now).1 = ⟨true, some now, some now, st.releasedTime⟩ := by
  rw [stepButton_press cfg s now hl, if_pos ha]
  rfl

/-- A rejected press changes nothing (R112). -/
theorem stepButton_rejected (cfg : Config) (s : Nat) {st : ButtonState} {now : Time} (hl : st.level = false)
    (ha : ¬pressAccepted cfg st now = true) : (stepButton cfg s st true now).1 = st := by
  rw [stepButton_press cfg s now hl, if_neg ha]

section

variable (cfg : Config) (d : Lanes) (now : Time) (b : Block)

/-! ### The events of a full read -/

/-- A full read has an event of a present selector exactly if it releases that button (R113, R122). -/
theorem exists_event_src_iff {sel : Fin 10} (hp : present cfg sel.val = true) :
    (∃ e ∈ (frameAfter cfg d now b).events, e.src = sel.val) ↔
      b.btn[sel].level = true ∧ (frameAfter cfg d now b).rawBit sel.val = false := by
  constructor
  · rintro ⟨e, he, hsrc⟩
    obtain ⟨s, -, hl, hr, rfl⟩ := (mem_frameAfter_events cfg d now b).1 he
    obtain rfl : s = sel := Fin.ext ((releaseEvent_src cfg s _ now).symm.trans hsrc)
    exact ⟨hl, hr⟩
  · rintro ⟨hl, hr⟩
    exact ⟨_, (mem_frameAfter_events cfg d now b).2 ⟨sel, hp, hl, hr, rfl⟩, releaseEvent_src cfg sel _ now⟩

/-- Does a full read with response `r` release a button: is it Pressed, with raw bit 0 (R113)? -/
def isReleased (r : FrameOut) (s : Fin 10) : Bool := b.btn[s].level && !r.rawBit s.val

/-- The events are the release events of the released buttons, in the order the bank step visits them (R118, R119). -/
theorem frameAfter_events :
    (frameAfter cfg d now b).events =
      ((presentSelectors cfg).filter (isReleased b (frameAfter cfg d now b))).map
        fun s => releaseEvent cfg s.val b.btn[s] now := by
  have hturn : ∀ s : Fin 10,
      (stepButton cfg s.val b.btn[s] (feedBit (decodedBy cfg d b).btn (decodedBy cfg d b).prof s.val) now).2 =
        if isReleased b (frameAfter cfg d now b) s then some (releaseEvent cfg s.val b.btn[s] now) else none := by
    intro s
    simp [stepButton_event, isReleased, frameAfter_rawBit]
  calc (frameAfter cfg d now b).events
      = (presentSelectors cfg).filterMap fun s =>
          (stepButton cfg s.val b.btn[s] (feedBit (decodedBy cfg d b).btn (decodedBy cfg d b).prof s.val) now).2 :=
        bankStep_events ..
    _ = _ := by simp only [hturn, ← List.filterMap_eq_map, List.filterMap_filter, Function.comp_apply]

theorem frameAfter_events_src :
    (frameAfter cfg d now b).events.map Event.src =
      ((presentSelectors cfg).filter (isReleased b (frameAfter cfg d now b))).map Fin.val := by
  simp only [frameAfter_events, List.map_map]
  exact List.map_congr_left fun s _ => releaseEvent_src cfg s _ now

/-- The bank step visits the selectors 0 to `N` − 1, then prev and next when `L` = 8 (R118, R119). -/
theorem presentSelectors_val :
    (presentSelectors cfg).map Fin.val = List.range cfg.nInputs.val ++ if cfg.len = 8 then [8, 9] else [] := by
  have hlow : (List.range 8).filter (present cfg) = List.range cfg.nInputs.val := by
    have key : ∀ N : Fin 9, (List.range 8).filter (fun k => decide (k < N.val)) = List.range N.val := by decide
    rw [← key]
    refine List.filter_congr fun k hk => ?_
    rw [present, if_pos (List.mem_range.1 hk)]
  have hprof : [8, 9].filter (present cfg) = if cfg.len = 8 then [8, 9] else [] := by
    by_cases h : cfg.len = 8 <;> simp [present, ← len_eq_eight_iff, h]
  calc (presentSelectors cfg).map Fin.val
      = ((List.finRange 10).map Fin.val).filter (present cfg) := by
        rw [List.filter_map]
        rfl
    _ = (List.range 8 ++ [8, 9]).filter (present cfg) := by
        rw [List.map_coe_finRange_eq_range]
        rfl
    _ = _ := by rw [List.filter_append, hlow, hprof]

/-- A build has `N` present selectors, and two more when `L` = 8 (R18, R119). -/
theorem presentSelectors_length :
    (presentSelectors cfg).length = cfg.nInputs.val + if cfg.len = 8 then 2 else 0 := by
  rw [← List.length_map (f := Fin.val), presentSelectors_val, List.length_append, List.length_range]
  split <;> rfl

/-- There is at most one event for each present button (R121). -/
theorem frameAfter_events_length_le : (frameAfter cfg d now b).events.length ≤ (presentSelectors cfg).length := by
  rw [frameAfter_events, List.length_map]
  exact List.length_filter_le ..

end

/-! ### The class of a release, and the three statements -/

/-- A release is SHORT exactly if its duration is below `LONG_TICKS` (R115). -/
theorem isLongPress_eq_false_iff (cfg : Config) (dur : Time) :
    isLongPress cfg dur = false ↔ dur.toNat < cfg.longTicks.toNat := by
  simp [isLongPress, BitVec.lt_def]

/-- Settles O34: a present lane takes its own step with the bit the response shows, row by row. -/
theorem instancesFollowTheTransitionTable : Obligations.InstancesFollowTheTransitionTable := by
  intro n d now s hn hnow
  refine ⟨_, _, exec_fullRead hn hnow, rfl, fun sel hp => ?_⟩
  have hlane := bankAfter_lane s.config d now s.block hp
  refine ⟨fun hsame => ?_, fun hl hr hnever => ?_, fun e hl hr he => ?_, fun hl hr => ?_,
    exists_event_src_iff s.config d now s.block hp⟩
  · exact hlane.trans (congrArg Prod.fst (stepButton_unchanged s.config sel.val now hsame))
  · rw [hr] at hlane
    exact hlane.trans (stepButton_accepted s.config sel.val hl (pressAccepted_of_never s.config now hnever))
  · rw [hr] at hlane
    have haccept := pressAccepted_iff s.config he (hnow sel hp e (.inl he))
    exact ⟨fun hlate => hlane.trans (stepButton_accepted s.config sel.val hl (haccept.2 hlate)),
      fun hearly => hlane.trans (stepButton_rejected s.config sel.val hl fun ha => by have := haccept.1 ha; omega)⟩
  · rw [hr] at hlane
    exact hlane.trans (congrArg Prod.fst (stepButton_release s.config sel.val now hl))

/-- Settles O35: the release event of the button, its duration exact because `now` is not before the press. -/
theorem releasesReportDurationAndClass : Obligations.ReleasesReportDurationAndClass := by
  intro n d now s hn hnow
  refine ⟨_, _, exec_fullRead hn hnow, rfl, fun sel hp hl hr p hpress => ?_⟩
  have hdur : heldDuration sel.val s.block.btn[sel] now = now - p := heldDuration_some hpress
  refine ⟨releaseEvent s.config sel.val s.block.btn[sel] now,
    (mem_frameAfter_events s.config d now s.block).2 ⟨sel, hp, hl, hr, rfl⟩, releaseEvent_src .., ?_, ?_, ?_⟩
  · rw [releaseEvent_dur, hdur]
    exact sub_toNat_of_le (hnow sel hp p (.inr (.inl hpress)))
  · rw [releaseEvent_long, releaseEvent_dur]
    exact isLongPress_eq_false_iff ..
  · exact (eventByte_fields sel _).2.2

/-- Settles O36: the released buttons in the order of the bank step, which is that of the selectors. -/
theorem eventsComeOnceEachInSelectorOrder : Obligations.EventsComeOnceEachInSelectorOrder := by
  intro n d now s hn hnow
  refine ⟨_, _, exec_fullRead hn hnow, rfl, ?_, ?_⟩
  · rw [frameAfter_events_src, presentSelectors, List.filter_filter, ← List.map_coe_finRange_eq_range, List.filter_map]
    refine congrArg (List.map Fin.val) (List.filter_congr fun sel _ => ?_)
    simp [isReleased, Bool.and_comm, Bool.and_left_comm]
  · rw [← presentSelectors_length]
    exact frameAfter_events_length_le ..

end Sys2Proof.Machine

/-!
PROOFS of the family 43_control_ops: what NOP, RDSTAT, RDBTN, SRST and the reserved opcodes answer and leave unchanged (R130 to R134).
-/

namespace Sys2Proof.Machine

/-! ### The command a transaction stands for -/

/-- The row of the opcode map for `op` is a command with that opcode and the transaction's argument (R60, R61). -/
theorem opcodeMap_row (op : BitVec 4) (c : Command) :
    Laws.CommandByte.opcode ((opcodeMap[op.toNat]'op.isLt) c) = op ∧
      Laws.CommandByte.argument ((opcodeMap[op.toNat]'op.isLt) c) = argField c.byte := by
  obtain ⟨⟨k, hk⟩⟩ := op
  interval_cases k <;> exact ⟨rfl, rfl⟩

@[simp] theorem opcode_decode (c : Command) : Laws.CommandByte.opcode (decode c) = opField c.byte :=
  (opcodeMap_row (opField c.byte) c).1

@[simp] theorem argument_decode (c : Command) : Laws.CommandByte.argument (decode c) = argField c.byte :=
  (opcodeMap_row (opField c.byte) c).2

/-! ### NOP, RDSTAT and SRST -/

/-- NOP completes with an ACK and changes nothing else (R130). -/
theorem exec_nop (arg : BitVec 4) (s : State) : exec (.nop arg) s = .next { s with response := some .ack } := rfl

/-- SRST completes with an ACK and the block at reset, and changes nothing else (R133). -/
theorem exec_srst (arg : BitVec 4) (s : State) :
    exec (.srst arg) s = .next { s with block := Block.reset, response := some .ack } := rfl

/-- Bit 7 of the status word says whether `L` is 8 (R68). -/
theorem statusWord_len8 (cfg : Config) (b : Block) : (statusWord cfg b).getLsbD 7 = decide (cfg.len = 8) := by
  obtain ⟨-, -, -, -, hlen⟩ := statusWord_bits cfg b
  rw [hlen]
  exact decide_eq_decide.2 (len_eq_eight_iff cfg).symm

/-- Settles O13: the status word by its fields, and RDSTAT completes with it. -/
theorem rdstatReturnsTheStatusWord : Obligations.RdstatReturnsTheStatusWord := by
  refine ⟨fun c h => ⟨argField c.byte, decode_of_mask 0x2 h⟩, fun arg s => ?_⟩
  obtain ⟨hsync, hshort, hop, harg, -⟩ := statusWord_bits s.config s.block
  exact ⟨statusWord s.config s.block, exec_rdstat arg s, statusWord_offset _ _, hsync, hshort, hop, harg,
    statusWord_len8 _ _, statusWord_nin _ _⟩

/-- Settles O12: the row 0x0 of the opcode map, and the arm of NOP. -/
theorem nopOnlyAcknowledges : Obligations.NopOnlyAcknowledges :=
  ⟨fun c h => ⟨argField c.byte, decode_of_mask 0x0 h⟩, exec_nop⟩

/-- Settles O15: the row 0xF of the opcode map, and SRST leaves the reset block. -/
theorem srstResetsTheBlock : Obligations.SrstResetsTheBlock :=
  ⟨fun c h => ⟨argField c.byte, decode_of_mask 0xF h⟩,
    fun arg s => ⟨_, exec_srst arg s, reset_atResetValues, rfl, rfl, rfl⟩⟩

/-! ### RDBTN -/

section

variable {sel : BitVec 4} {s : State}

/-- A selector that names no instance sets `ERR_ARG` and reads all 0 (R132). -/
theorem exec_rdbtn_noInstance (h : 10 ≤ sel.toNat) :
    exec (.rdbtn sel) s = .next { s with block := flagErrArg s.block, response := some (.btnRec emptyRecord) } :=
  dif_neg (Nat.not_lt.2 h)

/-- An absent instance reads all 0 with no error (R132). -/
theorem exec_rdbtn_absent (h : sel.toNat < 10) (hp : present s.config sel.toNat = false) :
    exec (.rdbtn sel) s = .next { s with response := some (.btnRec emptyRecord) } :=
  (dif_pos h).trans (if_neg (Bool.eq_false_iff.1 hp))

/-- A present instance reads its record and is not changed (R132). -/
theorem exec_rdbtn_present (h : sel.toNat < 10) (hp : present s.config sel.toNat = true) :
    exec (.rdbtn sel) s = .next { s with response := some (.btnRec (buttonRecord s.block.btn[sel.toNat])) } :=
  (dif_pos h).trans (if_pos hp)

end

/-- Settles O14: the three ways of RDBTN, and the fields of a present instance's record. -/
theorem rdbtnReadsOneButton : Obligations.RdbtnReadsOneButton := by
  refine ⟨fun c h => decode_of_mask 0x3 h, fun sel s => ⟨exec_rdbtn_noInstance, exec_rdbtn_absent, fun h hp => ?_⟩⟩
  obtain ⟨hpresent, hlevel, hldt, hpt, hrt, hzero⟩ := recordFlags_fields s.block.btn[sel.toNat]
  exact ⟨buttonRecord s.block.btn[sel.toNat], exec_rdbtn_present h hp, hpresent, hlevel, hldt, hpt, hrt, hzero,
    rfl, rfl, rfl⟩

/-! ### The reserved opcodes -/

/-- The eleven reserved commands with one argument, by opcode (R65). -/
def reservedCommands (arg : BitVec 4) : List Instr :=
  [.reserved4 arg, .reserved5 arg, .reserved6 arg, .reserved7 arg, .reserved8 arg, .reserved9 arg, .reservedA arg,
    .reservedB arg, .reservedC arg, .reservedD arg, .reservedE arg]

/-- They are the commands whose opcode is 0x4 to 0xE and whose argument is that one (R65). -/
theorem mem_reservedCommands_iff {arg : BitVec 4} {i : Instr} :
    i ∈ reservedCommands arg ↔ IsReserved i ∧ Laws.CommandByte.argument i = arg := by
  rw [isReserved_iff]
  cases i <;> simp [reservedCommands, Laws.CommandByte.opcode, Laws.CommandByte.argument]

/-- A reserved command sets `ERR_OP`, changes nothing else and returns an ACK (R134). -/
theorem exec_reserved {i : Instr} (h : IsReserved i) (s : State) :
    exec i s = .next { s with block := flagErrOp s.block, response := some .ack } := by
  cases i with
  | reserved4 _ | reserved5 _ | reserved6 _ | reserved7 _ | reserved8 _ | reserved9 _ | reservedA _ | reservedB _
  | reservedC _ | reservedD _ | reservedE _ => rfl
  | nop _ | chunk _ _ _ | rdstat _ | rdbtn _ | srst _ => simp [isReserved_iff, Laws.CommandByte.opcode] at h

/-- Settles O16: the reserved commands are those of opcode 4 to 14, and each has the one meaning of a reserved opcode. -/
theorem reservedOpcodesOnlySetErrOp : Obligations.ReservedOpcodesOnlySetErrOp := by
  rintro arg _ rfl
  refine ⟨fun c harg => ?_, fun i hi s => exec_reserved (mem_reservedCommands_iff.1 hi).1 s⟩
  have hmem : decode c ∈ reservedCommands arg ↔
      (4 ≤ (opField c.byte).toNat ∧ (opField c.byte).toNat ≤ 14) ∧ argField c.byte = arg := by
    rw [mem_reservedCommands_iff, isReserved_iff, opcode_decode, argument_decode]
  exact (hmem.trans (and_iff_left harg)).symm

end Sys2Proof.Machine

/-!
PROOFS of the family other, encoding: encode and decode undo each other (R60 to R62), and the bytes of R74.
-/

namespace Sys2Proof.Machine

/-- The encoder writes the command's argument for every command (R60). -/
@[simp] theorem argField_encode (i : Instr) : argField (encode i).byte = Laws.CommandByte.argument i := by
  cases i <;> exact argField_commandByte _ _

/-- A command byte is its opcode above its argument, so the encoder writes both fields of the command (R60). -/
theorem encode_byte (i : Instr) :
    (encode i).byte = commandByte (Laws.CommandByte.opcode i) (Laws.CommandByte.argument i) := by
  rw [← opField_encode, ← argField_encode, commandByte_fields]

/-- A transaction with the byte of a command, and with its lanes and time if it is a CHUNK, decodes to that command (R60 to R62). -/
theorem decode_of_byte {c : Command} {i : Instr} (hbyte : c.byte = (encode i).byte)
    (hdata : Laws.CommandByte.opcode i = 1 → c.lanes = (encode i).lanes ∧ c.now = (encode i).now) : decode c = i := by
  have harg : argField c.byte = Laws.CommandByte.argument i := by rw [hbyte, argField_encode]
  rw [decode_of_opField (hbyte ▸ opField_encode i)]
  cases i with
  | chunk n d now =>
    obtain ⟨hlanes, hnow⟩ := hdata rfl
    exact congr (congrArg₂ Instr.chunk harg hlanes) hnow
  | nop _ => exact congrArg Instr.nop harg
  | rdstat _ => exact congrArg Instr.rdstat harg
  | rdbtn _ => exact congrArg Instr.rdbtn harg
  | reserved4 _ => exact congrArg Instr.reserved4 harg
  | reserved5 _ => exact congrArg Instr.reserved5 harg
  | reserved6 _ => exact congrArg Instr.reserved6 harg
  | reserved7 _ => exact congrArg Instr.reserved7 harg
  | reserved8 _ => exact congrArg Instr.reserved8 harg
  | reserved9 _ => exact congrArg Instr.reserved9 harg
  | reservedA _ => exact congrArg Instr.reservedA harg
  | reservedB _ => exact congrArg Instr.reservedB harg
  | reservedC _ => exact congrArg Instr.reservedC harg
  | reservedD _ => exact congrArg Instr.reservedD harg
  | reservedE _ => exact congrArg Instr.reservedE harg
  | srst _ => exact congrArg Instr.srst harg

/-- CHUNK reads its lanes and its time from the transaction (R62). -/
theorem decode_chunk (n : BitVec 4) (d : Lanes) (now : Time) : decode ⟨commandByte 0x1 n, d, now⟩ = .chunk n d now :=
  decode_of_byte rfl fun _ => ⟨rfl, rfl⟩

/-- Every other command is its byte alone, whatever lanes and time come with it (R46). -/
theorem decode_plain {i : Instr} (hi : Laws.CommandByte.opcode i ≠ 1) (d : Lanes) (now : Time) :
    decode ⟨(encode i).byte, d, now⟩ = i :=
  decode_of_byte rfl fun h => absurd h hi

/-- Settles O1: what the encoder writes has the command's byte, lanes and time. -/
theorem encodedCommandsDecodeToThemselves : Obligations.EncodedCommandsDecodeToThemselves :=
  fun _ => decode_of_byte rfl fun _ => ⟨rfl, rfl⟩

/-- Settles O2: the decoder keeps both fields of the byte, and CHUNK its lanes and time as well. -/
theorem decodedTransactionsEncodeBack : Obligations.DecodedTransactionsEncodeBack := by
  intro c
  have hbyte : (encode (decode c)).byte = c.byte := by
    rw [encode_byte, opcode_decode, argument_decode, commandByte_fields]
  refine ⟨hbyte, fun hop => ?_⟩
  have hchunk : decode c = .chunk (argField c.byte) c.lanes c.now := decode_of_opField hop
  calc encode (decode c) = ⟨(encode (decode c)).byte, c.lanes, c.now⟩ := by rw [hchunk]; rfl
    _ = c := by rw [hbyte]

/-- Settles O4: each byte is the one the encoder writes for its command. -/
theorem writtenOutCommandBytesDecode : Obligations.WrittenOutCommandBytesDecode :=
  fun d now => ⟨decode_chunk 6 d now, decode_chunk 8 d now, decode_chunk 0 d now,
    decode_plain (i := .rdbtn 9) (by decide) d now, decode_plain (i := .rdbtn 10) (by decide) d now,
    decode_plain (i := .rdstat 0xF) (by decide) d now, decode_plain (i := .reserved5 5) (by decide) d now,
    decode_plain (i := .nop 7) (by decide) d now, decode_plain (i := .srst 3) (by decide) d now,
    decode_plain (i := .reservedE 0xF) (by decide) d now, decode_plain (i := .reserved4 0xA) (by decide) d now⟩

/-! ### The bits of the control byte -/

/-- Index `k` of the reversed list is bit `k` of the control byte (R101). -/
theorem buttonBits_getElem? (c : Byte) {k : Nat} (hk : k < 8) : (buttonBits c)[k]? = some (c.getLsbD k) := by
  interval_cases k <;> rfl

/-- Settles O31: the list and its reversal are the same eight bits in the two orders. -/
theorem bitOrderIsReversedAndRestored : Obligations.BitOrderIsReversedAndRestored :=
  fun c => ⟨fun _ hk => buttonBits_getElem? c hk, rfl, List.reverse_reverse (byteToBits c), packBits_buttonBits c⟩

end Sys2Proof.Machine

/-!
PROOFS of the family other, steps, reset and the build (R50, R153, R170), and what every command returns and leaves (R17, R21,
R29 to R32, R48, R64).
-/

namespace Sys2Proof.Machine

/-! ### Steps and reset -/

/-- Settles O6: the command arm of a step. -/
theorem stepRunsTheDecodedCommand : Obligations.StepRunsTheDecodedCommand := fun _ _ _ h => step_command_eq h

/-- Settles O7: the idle arm of a step. -/
theorem idlePortChangesNothing : Obligations.IdlePortChangesNothing := fun _ h => step_idle h

/-- Settles O8: both the pulse and SRST leave the reset block. -/
theorem resetInputAndSrstSetResetValues : Obligations.ResetInputAndSrstSetResetValues :=
  fun _ _ arg h => ⟨_, _, step_reset h, exec_srst arg _, rfl, reset_atResetValues, rfl, rfl⟩

/-- Settles O9: a block of any build starts as the reset block. -/
theorem resetStateHoldsTheResetValues : Obligations.ResetStateHoldsTheResetValues :=
  fun _ => ⟨reset_atResetValues, rfl, rfl⟩

/-! ### The build -/

/-- The ranges of R6 to R10, with the two default intervals written out. -/
theorem wf_iff (p : Params) :
    p.wf = true ↔ (p.frameLen = 6 ∨ p.frameLen = 8) ∧ p.nInputs ≤ 8 ∧ 0 < p.ticksPerMs ∧
      p.debounceTicks.getD (50 * p.ticksPerMs) < 2 ^ 64 ∧ p.longTicks.getD (300 * p.ticksPerMs) < 2 ^ 64 := by
  simp only [Params.wf, Bool.and_eq_true, Bool.or_eq_true, beq_iff_eq, decide_eq_true_eq, and_assoc]
  rfl

/-- A built block has `L` = `FRAME_LEN` as it was asked for (R6). -/
theorem build_len {p : Params} (hlen : p.frameLen = 6 ∨ p.frameLen = 8) :
    (if p.frameLen = 8 then FrameLen.eight else FrameLen.six).bytes = p.frameLen := by
  rcases hlen with h | h <;> simp [h, FrameLen.bytes]

/-- Settles O10: the parameters in range are those of `wf`, and in its range each number is kept whole. -/
theorem buildTakesExactlyTheParametersInRange : Obligations.BuildTakesExactlyTheParametersInRange := by
  intro p
  refine ⟨by rw [build_isSome]; exact wf_iff p, fun cfg h => ?_⟩
  have hwf : p.wf = true := by rw [← build_isSome, h]; rfl
  obtain ⟨hlen, hinputs, -, hdebounce, hlong⟩ := (wf_iff p).1 hwf
  rw [Config.build, if_pos hwf, Option.some.injEq] at h
  subst h
  refine ⟨build_len hlen, Nat.mod_eq_of_lt (Nat.lt_succ_of_le hinputs), rfl, ?_, ?_, rfl⟩
  · exact (BitVec.toNat_ofNat _ 64).trans (Nat.mod_eq_of_lt hdebounce)
  · exact (BitVec.toNat_ofNat _ 64).trans (Nat.mod_eq_of_lt hlong)

/-! ### What every command returns and keeps -/

/-- Settles O20: the record of each way a command completes. -/
theorem eachCommandReturnsItsRecord : Obligations.EachCommandReturnsItsRecord := by
  intro i s t h
  cases i with
  | chunk n d now =>
    rcases execChunk_cases h with ⟨-, rfl⟩ | ⟨-, rfl⟩ | ⟨-, -, rfl⟩ <;> exact ⟨_, rfl⟩
  | rdbtn sel =>
    obtain ⟨r, ⟨-, rfl⟩ | ⟨-, rfl⟩⟩ := execRdbtn_cases h <;> exact ⟨r, rfl⟩
  | rdstat arg =>
    obtain rfl := complete_eq_next_iff.1 h
    exact ⟨_, rfl⟩
  | nop _ | srst _ | reserved4 _ | reserved5 _ | reserved6 _ | reserved7 _ | reserved8 _ | reserved9 _
  | reservedA _ | reservedB _ | reservedC _ | reservedD _ | reservedE _ =>
    obtain rfl := complete_eq_next_iff.1 h
    rfl

/-- A command that answers a next state keeps the build and the waiting inputs (R35, R171). -/
theorem exec_frame {i : Instr} {s t : State} (h : exec i s = .next t) : t.config = s.config ∧ t.inbox = s.inbox := by
  by_cases hr : RegressingFullRead i s
  · rw [exec_refused hr] at h
    cases h
  · obtain ⟨b, r, hb⟩ := exec_completes hr
    obtain rfl := complete_eq_next_iff.1 (hb ▸ h)
    exact ⟨rfl, rfl⟩

/-- Settles O24: a completed command writes the block and the response only. -/
theorem commandsKeepTheBuildAndTheInputs : Obligations.CommandsKeepTheBuildAndTheInputs := fun _ _ _ h => exec_frame h

/-- Settles O17: none of the three reads its argument; NOP and RDSTAT keep the error flags, SRST clears them. -/
theorem hintArgumentsAreIgnored : Obligations.HintArgumentsAreIgnored := by
  refine fun arg s => ⟨⟨rfl, rfl, rfl⟩, ?_⟩
  simp only [List.forall_mem_cons]
  refine ⟨⟨_, exec_nop arg s, id, id⟩, ⟨_, exec_rdstat arg s, id, id⟩, ⟨_, exec_srst arg s, ?_, ?_⟩, by simp⟩ <;> simp

/-- RDBTN done twice ends as done once: it leaves nothing that it reads changed (R48, R132). -/
theorem exec_rdbtn_idempotent (sel : BitVec 4) (s : State) :
    ∃ t, exec (.rdbtn sel) s = .next t ∧ (sel.toNat < 10 → t.block = s.block) ∧ exec (.rdbtn sel) t = .next t := by
  rcases Nat.lt_or_ge sel.toNat 10 with h | h
  · cases hp : present s.config sel.toNat with
    | true => exact ⟨_, exec_rdbtn_present h hp, fun _ => rfl, exec_rdbtn_present h hp⟩
    | false => exact ⟨_, exec_rdbtn_absent h hp, fun _ => rfl, exec_rdbtn_absent h hp⟩
  · exact ⟨_, exec_rdbtn_noInstance h, fun hlt => by omega, exec_rdbtn_noInstance h⟩

/-- Settles O18: the second command finds everything the first one read as it was. -/
theorem readsAndSoftResetAreIdempotent : Obligations.ReadsAndSoftResetAreIdempotent :=
  fun arg s => ⟨⟨_, exec_rdstat arg s, rfl, exec_rdstat arg _⟩, exec_rdbtn_idempotent arg s,
    ⟨_, exec_srst arg s, exec_srst arg _⟩⟩

/-! ### What every command leaves of the offset and the bank -/

/-- The three ways a completed command treats `lastOffset` and the instances: SRST resets them, a full read without a time regress
moves them, and everything else keeps them (R21, R29 to R32). -/
theorem exec_machines {i : Instr} {s t : State} (h : exec i s = .next t) :
    (∃ arg, i = .srst arg ∧ t.block = Block.reset) ∨
      (t.block.lastOffset = s.block.lastOffset ∧ t.block.btn = s.block.btn) ∨
      ∃ n d now, i = .chunk n d now ∧ n.toNat = s.config.len ∧ NoTimeRegress s now ∧
        t.block.lastOffset = offsetAfter s.config d s.block ∧ t.block.btn = (bankAfter s.config d now s.block).1 := by
  have hb := exec_blockChange h
  generalize t.block = b at hb
  cases hb with
  | srst arg => exact .inl ⟨arg, rfl, rfl⟩
  | fullRead d now hn => exact .inr (.inr ⟨_, d, now, rfl, hn, noTimeRegress_of_exec hn h, rfl, rfl⟩)
  | nop | overlongRead | shortRead | rdstat | rdbtn | rdbtnNoInstance | reserved => exact .inr (.inl ⟨rfl, rfl⟩)

/-- The offset a full read leaves is the old one, or a ring position that has the signature (R85). -/
theorem offsetAfter_cases (cfg : Config) (d : Lanes) (b : Block) :
    offsetAfter cfg d b = b.lastOffset ∨
      (offsetAfter cfg d b).toNat < cfg.len ∧ ringHasSig cfg d (offsetAfter cfg d b).toNat := by
  cases hf : foundAt cfg d with
  | none => exact .inl (offsetAfter_of_not_found cfg d b hf)
  | some p =>
    obtain ⟨hp, hsig, -⟩ := (foundAt_eq_some_iff cfg d).1 hf
    rw [offsetAfter_of_found cfg d b hf]
    exact .inr ⟨hp, hsig⟩

/-- Settles O23: of the commands that are not SRST only a full read moves the offset or the bank, the offset to a signature. -/
theorem onlyFullReadsAndResetMoveTheMachines : Obligations.OnlyFullReadsAndResetMoveTheMachines := by
  intro i s t h hsrst
  rcases exec_machines h with ⟨arg, hi, -⟩ | ⟨hoff, hbtn⟩ | ⟨n, d, now, hi, hn, -, hoff, -⟩
  · exact absurd hi (hsrst arg)
  · exact ⟨fun _ => ⟨hoff, hbtn⟩, fun hmoved => absurd hoff hmoved⟩
  · refine ⟨fun hnot => absurd hn (hnot n d now hi), fun hmoved => ⟨n, d, now, hi, hn, ?_⟩⟩
    rw [hoff] at hmoved ⊢
    exact (offsetAfter_cases s.config d s.block).resolve_left hmoved

end Sys2Proof.Machine

/-!
PROOFS of the family other, full reads: what they keep (R80), which operands they read (R62), and the frames they cut out of a
stream (R88, R177).
-/

namespace Sys2Proof.Machine

/-! ### The frame and the operands of CHUNK -/

/-- Settles O27: the state a full read ends in, and the fields of its `FLAGS` byte. -/
theorem fullReadCompletesAndKeepsTheRest : Obligations.FullReadCompletesAndKeepsTheRest := by
  intro n d now s hn hnow
  obtain ⟨hvalid, hsync, hoffset, hzero⟩ :=
    frameFlags_fields true (foundAt s.config d).isSome (offsetAfter s.config d s.block)
  exact ⟨_, _, exec_fullRead hn hnow, rfl, hvalid, hsync, hoffset, hzero, rfl, rfl, rfl, rfl,
    fun _ hp => bankAfter_absent s.config d now s.block hp⟩

/-- The chunk is the lanes below `L` and nothing else of them (R83). -/
theorem chunkBytes_congr {cfg : Config} {d d' : Lanes} (h : ∀ k < cfg.len, d.toList.getD k 0 = d'.toList.getD k 0) :
    chunkBytes cfg d = chunkBytes cfg d' := by
  refine List.ext_getElem (by simp [chunkBytes_length]) fun k hk _ => ?_
  have hlane := h k (chunkBytes_length cfg d ▸ hk)
  have hk8 : k < 8 := by
    have := len_le_eight cfg
    rw [chunkBytes_length] at hk
    omega
  simpa [chunkBytes, List.getD_eq_getElem, hk8] using hlane

/-- A full read depends on the lanes through its chunk alone (R83). -/
theorem fullRead_congr {d d' : Lanes} {s : State} (now : Time) (h : chunkBytes s.config d = chunkBytes s.config d') :
    fullRead d now s = fullRead d' now s := by
  simp only [fullRead, fullReadEffect, h]

/-- Settles O28: the reads that decode no frame look at no lane, a full read at the first `L`. -/
theorem unusedChunkOperandsAreIgnored : Obligations.UnusedChunkOperandsAreIgnored := by
  intro n d d' now now' s hlanes hnow
  rcases Nat.lt_trichotomy n.toNat s.config.len with hn | hn | hn
  · rw [exec_shortRead hn, exec_shortRead hn]
  · obtain rfl := hnow hn
    have hlen := len_le_eight s.config
    exact (execChunk_full hn).trans ((fullRead_congr now (chunkBytes_congr fun k hk => hlanes k (by omega))).trans
      (execChunk_full hn).symm)
  · rw [exec_overlongRead hn, exec_overlongRead hn]

/-! ### Frames and their rotations -/

/-- A frame begins with the signature (R12). -/
def BeginsWithSig (frame : Nat → Byte) : Prop :=
  frame 0 = 0x02 ∧ frame 1 = 0x04 ∧ frame 2 = 0x03 ∧ frame 3 = 0x04

/-- An 8-byte frame whose payload is the signature again: the one frame with two signatures on its ring (R88). -/
def RepeatsSig (cfg : Config) (frame : Nat → Byte) : Prop :=
  cfg.len = 8 ∧ frame 4 = 0x02 ∧ frame 5 = 0x04 ∧ frame 6 = 0x03 ∧ frame 7 = 0x04

/-- The chunk is the frame read as a ring from its byte `r` on (R88). -/
def IsRotation (cfg : Config) (d : Lanes) (frame : Nat → Byte) (r : Nat) : Prop :=
  ∀ i < cfg.len, d.toList.getD i 0 = frame ((i + r) % cfg.len)

/-- The frame has the signature at byte `m` of its ring. -/
def FrameHasSig (cfg : Config) (frame : Nat → Byte) (m : Nat) : Prop :=
  frame (m % cfg.len) = 0x02 ∧ frame ((m + 1) % cfg.len) = 0x04 ∧ frame ((m + 2) % cfg.len) = 0x03 ∧
    frame ((m + 3) % cfg.len) = 0x04

/-- The signature overlaps no shifted copy of itself, so a frame has it at byte 0, and at byte 4 if its payload repeats it. -/
theorem frameHasSig_iff {cfg : Config} {frame : Nat → Byte} (hf : BeginsWithSig frame) {m : Nat} (hm : m < cfg.len) :
    FrameHasSig cfg frame m ↔ m = 0 ∨ RepeatsSig cfg frame ∧ m = 4 := by
  obtain ⟨h0, h1, h2, h3⟩ := hf
  rcases len_eq_six_or_eight cfg with hlen | hlen <;> rw [hlen] at hm <;> interval_cases m <;>
    simp [FrameHasSig, RepeatsSig, hlen, h0, h1, h2, h3]

section

variable {cfg : Config} {d : Lanes} {frame : Nat → Byte} {r : Nat}

/-- Ring byte `j` of a rotated frame is byte `j + r` of the frame's ring. -/
theorem ringByte_of_rotation (h : IsRotation cfg d frame r) (j : Nat) :
    ringByte cfg d j = frame ((j + r) % cfg.len) := by
  rw [ringByte, h _ (Nat.mod_lt j (len_pos cfg)), Nat.mod_add_mod]

/-- The chunk has the signature where the frame it is a rotation of has it. -/
theorem ringHasSig_of_rotation (h : IsRotation cfg d frame r) (hf : BeginsWithSig frame) (q : Nat) :
    ringHasSig cfg d q ↔ (q + r) % cfg.len = 0 ∨ RepeatsSig cfg frame ∧ (q + r) % cfg.len = 4 := by
  rw [← frameHasSig_iff hf (Nat.mod_lt _ (len_pos cfg))]
  simp [ringHasSig, FrameHasSig, ringByte_of_rotation h, Nat.add_right_comm q _ r]

/-- A rotated frame has its own signature at ring position `(L - r) mod L` (R88). -/
theorem rotation_start (cfg : Config) {r : Nat} (hr : r < cfg.len) : ((cfg.len - r) % cfg.len + r) % cfg.len = 0 := by
  rw [Nat.mod_add_mod, Nat.sub_add_cancel (Nat.le_of_lt hr), Nat.mod_self]

/-- The scan of a rotated frame finds a signature, at byte 0 of the frame or at byte 4 where the payload repeats it. -/
theorem foundAt_of_rotation (h : IsRotation cfg d frame r) (hf : BeginsWithSig frame) (hr : r < cfg.len) :
    ∃ p, foundAt cfg d = some p ∧ ((p + r) % cfg.len = 0 ∨ RepeatsSig cfg frame ∧ (p + r) % cfg.len = 4) := by
  cases hfound : foundAt cfg d with
  | none =>
    have hnone := (foundAt_eq_none_iff cfg d).1 hfound _ (Nat.mod_lt (cfg.len - r) (len_pos cfg))
    exact absurd ((ringHasSig_of_rotation h hf _).2 (.inl (rotation_start cfg hr))) hnone
  | some p =>
    obtain ⟨-, hsig, -⟩ := (foundAt_eq_some_iff cfg d).1 hfound
    exact ⟨p, rfl, (ringHasSig_of_rotation h hf p).1 hsig⟩

/-- Behind either signature stands the frame's payload (R86, R88). -/
theorem extractPayload_of_rotation (h : IsRotation cfg d frame r) (hf : BeginsWithSig frame) {p : Nat}
    (hp : (p + r) % cfg.len = 0 ∨ RepeatsSig cfg frame ∧ (p + r) % cfg.len = 4) :
    extractPayload cfg (chunkBytes cfg d) p = (List.range (cfg.len - 4)).map fun k => frame (4 + k) := by
  refine List.map_congr_left fun k hk => ?_
  have hk : k < cfg.len - 4 := List.mem_range.1 hk
  rw [payloadByte_eq, ringByte_of_rotation h]
  rcases hp with hp | ⟨⟨hlen, h4, h5, h6, h7⟩, hp⟩
  · have : (p + 4 + k + r) % cfg.len = 4 + k := by
      rw [show p + 4 + k + r = p + r + (4 + k) by omega, Nat.add_mod, hp, Nat.zero_add, Nat.mod_mod,
        Nat.mod_eq_of_lt (by omega)]
    rw [this]
  · obtain ⟨h0, h1, h2, h3⟩ := hf
    rw [hlen] at hp hk ⊢
    have : (p + 4 + k + r) % 8 = k := by omega
    rw [this]
    interval_cases k <;> simp [h0, h1, h2, h3, h4, h5, h6, h7]

/-- A rotated frame has its signature found (R84, R88). -/
theorem foundAt_isSome_of_rotation (h : IsRotation cfg d frame r) (hf : BeginsWithSig frame) (hr : r < cfg.len) :
    (foundAt cfg d).isSome = true := by
  obtain ⟨p, hfound, -⟩ := foundAt_of_rotation h hf hr
  rw [hfound]
  rfl

/-- The ring position of frame byte 0 is the only one (R88). -/
theorem eq_start_of_add_mod_eq_zero (hr : r < cfg.len) {p : Nat} (hp : p < cfg.len) (h : (p + r) % cfg.len = 0) :
    p = (cfg.len - r) % cfg.len := by
  rcases len_eq_six_or_eight cfg with hlen | hlen <;> rw [hlen] at hr hp h ⊢ <;> omega

/-- What a full read of a rotated frame leaves (R88): the frame's payload stands behind the offset, which is the frame's start, or the
smaller of the two starts where the payload repeats the signature. -/
theorem offsetAfter_of_rotation (b : Block) (h : IsRotation cfg d frame r) (hf : BeginsWithSig frame) (hr : r < cfg.len) :
    extractPayload cfg (chunkBytes cfg d) (offsetAfter cfg d b).toNat =
        (List.range (cfg.len - 4)).map (fun k => frame (4 + k)) ∧
      (¬RepeatsSig cfg frame → (offsetAfter cfg d b).toNat = (cfg.len - r) % cfg.len) ∧
      (RepeatsSig cfg frame → (offsetAfter cfg d b).toNat =
        min ((cfg.len - r) % cfg.len) (((cfg.len - r) % cfg.len + 4) % 8)) := by
  obtain ⟨p, hfound, hstart⟩ := foundAt_of_rotation h hf hr
  obtain ⟨hp, -, hleast⟩ := (foundAt_eq_some_iff cfg d).1 hfound
  rw [offsetAfter_of_found cfg d b hfound]
  refine ⟨extractPayload_of_rotation h hf hstart, fun honce => ?_, fun htwice => ?_⟩
  · exact eq_start_of_add_mod_eq_zero hr hp (hstart.resolve_right fun hrep => honce hrep.1)
  · have hearlier : ∀ q < p, (q + r) % cfg.len ≠ 0 ∧ (q + r) % cfg.len ≠ 4 := fun q hq =>
      ⟨fun hz => hleast q hq ((ringHasSig_of_rotation h hf q).2 (.inl hz)),
        fun hz => hleast q hq ((ringHasSig_of_rotation h hf q).2 (.inr ⟨htwice, hz⟩))⟩
    have hzero := hearlier ((cfg.len - r) % cfg.len)
    have hfour := hearlier (((cfg.len - r) % cfg.len + 4) % 8)
    have hlen : cfg.len = 8 := htwice.1
    rw [hlen] at hr hp hstart hzero hfour ⊢
    omega

/-- A payload that repeats the signature is the signature. -/
theorem RepeatsSig.payload_eq (h : RepeatsSig cfg frame) :
    (List.range (cfg.len - 4)).map (fun k => frame (4 + k)) = [0x02, 0x04, 0x03, 0x04] := by
  obtain ⟨hlen, h4, h5, h6, h7⟩ := h
  simp [hlen, h4, h5, h6, h7, List.range_succ]

end

/-- Settles O32: the scan stops at the frame's own signature or at the one its payload repeats, with the payload behind both. -/
theorem rotatedFrameYieldsItsPayload : Obligations.RotatedFrameYieldsItsPayload := by
  intro n d now s frame r p hn hnow h0 h1 h2 h3 hr hp hrot
  have hf : BeginsWithSig frame := ⟨h0, h1, h2, h3⟩
  obtain ⟨hpayload, honce, htwice⟩ := offsetAfter_of_rotation s.block hrot hf hr
  subst hp
  refine ⟨_, exec_fullRead hn hnow, ?_, hpayload, honce, htwice⟩
  exact foundAt_isSome_of_rotation hrot hf hr

/-- The ring a read over two consecutive frames sees: the newer frame's bytes before `r`, the older one's from `r` on (R177). -/
def mixedFrame (older newer : Nat → Byte) (r m : Nat) : Byte := if m < r then newer m else older m

/-- A read that begins at byte `r` of the older of two frames is a rotation of their mix (R177). -/
theorem isRotation_mixedFrame {cfg : Config} {d : Lanes} {older newer : Nat → Byte} {r : Nat} (hr : r < cfg.len)
    (h : ∀ i < cfg.len, d.toList.getD i 0 = if r + i < cfg.len then older (r + i) else newer (r + i - cfg.len)) :
    IsRotation cfg d (mixedFrame older newer r) r := by
  intro i hi
  rw [h i hi, mixedFrame, Nat.add_comm i r]
  by_cases hlt : r + i < cfg.len
  · rw [if_pos hlt, Nat.mod_eq_of_lt hlt, if_neg (by omega)]
  · rw [if_neg hlt, Nat.mod_eq_sub_mod (by omega), Nat.mod_eq_of_lt (by omega), if_pos (by omega)]

/-- Two frames that begin with the signature mix to one that does. -/
theorem beginsWithSig_mixedFrame {older newer : Nat → Byte} (ho : BeginsWithSig older) (hn : BeginsWithSig newer) (r : Nat) :
    BeginsWithSig (mixedFrame older newer r) := by
  obtain ⟨o0, o1, o2, o3⟩ := ho
  obtain ⟨n0, n1, n2, n3⟩ := hn
  simp [BeginsWithSig, mixedFrame, *]

/-- Settles O33: the read is a rotation of the mix of the two frames, so it cuts out the mix's payload. -/
theorem windowOverTwoFramesMixesOnlyTheirFields : Obligations.WindowOverTwoFramesMixesOnlyTheirFields := by
  intro n d now s older newer r hn hnow o0 o1 o2 o3 n0 n1 n2 n3 hr hwindow
  have hrot := isRotation_mixedFrame hr hwindow
  have hf := beginsWithSig_mixedFrame ⟨o0, o1, o2, o3⟩ ⟨n0, n1, n2, n3⟩ r
  obtain ⟨hpayload, honce, -⟩ := offsetAfter_of_rotation s.block hrot hf hr
  refine ⟨_, exec_fullRead hn hnow, foundAt_isSome_of_rotation hrot hf hr, hpayload, fun hne => honce fun hrep => hne ?_⟩
  exact hpayload.trans hrep.payload_eq

end Sys2Proof.Machine

/-!
PROOFS of the family other, the debounce bank: lanes do not mix (R126), and a bounced press that is held (R123).
-/

namespace Sys2Proof.Machine

/-- The bank and the response of a full read that completed. -/
theorem fullRead_result {n : BitVec 4} {d : Lanes} {now : Time} {s t : State} {r : FrameOut} (hn : n.toNat = s.config.len)
    (h : exec (.chunk n d now) s = .next t) (hr : t.response = some (.frameOut r)) :
    t.block.btn = (bankAfter s.config d now s.block).1 ∧ r = frameAfter s.config d now s.block := by
  rw [exec_fullRead hn (noTimeRegress_of_exec hn h), Host.Outcome.next.injEq] at h
  subst h
  exact ⟨rfl, (Response.frameOut.inj (Option.some.inj hr)).symm⟩

/-! ### Lanes are independent -/

section

variable (cfg : Config) (d d' : Lanes) (now : Time) {b b' : Block} {sel : Fin 10}

/-- The events of one selector are decided by its presence, its own instance and its own raw bit. -/
theorem frameAfter_events_filter (b : Block) (sel : Fin 10) :
    (frameAfter cfg d now b).events.filter (fun e => e.src == sel.val) =
      ((presentSelectors cfg).filter fun s => s == sel && isReleased b (frameAfter cfg d now b) sel).map
        fun _ => releaseEvent cfg sel.val b.btn[sel] now := by
  have hsrc : ∀ s : Fin 10, ((releaseEvent cfg s.val b.btn[s] now).src == sel.val) = (s == sel) := by
    intro s
    rw [releaseEvent_src, Bool.eq_iff_iff, beq_iff_eq, beq_iff_eq, Fin.ext_iff]
  have hown : ∀ s : Fin 10, ((s == sel) && isReleased b (frameAfter cfg d now b) s) =
      (s == sel && isReleased b (frameAfter cfg d now b) sel) := by
    intro s
    rcases eq_or_ne s sel with rfl | h
    · rfl
    · rw [beq_false_of_ne h, Bool.false_and, Bool.false_and]
  simp only [frameAfter_events, List.filter_map, List.filter_filter, Function.comp_def, hsrc, hown]
  refine List.map_congr_left fun s hs => ?_
  have : s = sel := eq_of_beq (Bool.and_eq_true_iff.1 (List.mem_filter.1 hs).2).1
  rw [this]

variable {d d'}

/-- A lane with the same instance, the same raw bit and the same `now` gets the same next state (R126). -/
theorem bankAfter_lane_congr (hst : b'.btn[sel] = b.btn[sel])
    (hraw : (frameAfter cfg d' now b').rawBit sel.val = (frameAfter cfg d now b).rawBit sel.val) :
    (bankAfter cfg d' now b').1[sel] = (bankAfter cfg d now b).1[sel] := by
  cases hp : present cfg sel.val with
  | true => rw [bankAfter_lane cfg d' now b' hp, bankAfter_lane cfg d now b hp, hst, hraw]
  | false => rw [bankAfter_absent cfg d' now b' hp, bankAfter_absent cfg d now b hp, hst]

/-- A lane with the same instance, the same raw bit and the same `now` gets the same events (R126). -/
theorem frameAfter_events_filter_congr (hst : b'.btn[sel] = b.btn[sel])
    (hraw : (frameAfter cfg d' now b').rawBit sel.val = (frameAfter cfg d now b).rawBit sel.val) :
    (frameAfter cfg d' now b').events.filter (fun e => e.src == sel.val) =
      (frameAfter cfg d now b).events.filter (fun e => e.src == sel.val) := by
  rw [frameAfter_events_filter, frameAfter_events_filter, isReleased, isReleased, hst, hraw]

end

/-- Settles O37: the next state and the events of a lane are functions of its instance, its raw bit and `now`. -/
theorem lanesAreIndependent : Obligations.LanesAreIndependent := by
  intro n n' d d' now s s' t t' r r' sel hcfg hn hn' h h' hr hr' hst hraw
  obtain ⟨hbtn, rfl⟩ := fullRead_result hn h hr
  obtain ⟨hbtn', rfl⟩ := fullRead_result (hcfg ▸ hn') h' hr'
  rw [hcfg] at hbtn' hraw ⊢
  rw [hbtn, hbtn']
  exact ⟨bankAfter_lane_congr s.config now hst hraw, frameAfter_events_filter_congr s.config now hst hraw⟩

/-! ### A bounced press that is held -/

/-- Samples with raw bit 1 before the interval has passed leave an Idle instance as it is (R112, R123). -/
theorem foldl_rejected (cfg : Config) (s : Nat) {st : ButtonState} {pressed : Time} (hl : st.level = false)
    (hd : st.lastDebounceTime = some pressed) {early : List Time}
    (h : ∀ t ∈ early, pressed ≤ t ∧ t.toNat < pressed.toNat + cfg.debounceTicks.toNat) :
    early.foldl (fun x t => (stepButton cfg s x true t).1) st = st := by
  induction early with
  | nil => rfl
  | cons t ts ih =>
    obtain ⟨⟨hle, hlt⟩, hts⟩ := List.forall_mem_cons.1 h
    have hrejected : ¬pressAccepted cfg st t = true := fun ha => by
      have := (pressAccepted_iff cfg hd hle).1 ha
      omega
    rw [List.foldl_cons, stepButton_rejected cfg s hl hrejected]
    exact ih hts

/-- Settles O38: each early sample is rejected, and the first late one meets the interval. -/
theorem heldBounceIsAcceptedAtTheFirstLateSample : Obligations.HeldBounceIsAcceptedAtTheFirstLateSample := by
  intro cfg sel st pressed early late hl hd hearly hlate
  have hle : pressed ≤ late := BitVec.le_def.2 (by omega)
  have haccepted := (pressAccepted_iff cfg hd hle).2 hlate
  refine ⟨foldl_rejected cfg sel hl hd hearly, ?_⟩
  rw [stepButton_press cfg sel late hl, if_pos haccepted]
  rfl

end Sys2Proof.Machine

/-!
PROOFS of the family other, runs: the invariants R21 and R33 at reset and along every step, the events of reached states (R116), and
the spacing of accepted presses (R111).
-/

namespace Sys2Proof.Machine

/-! ### The invariant -/

/-- The reset block of any build is good (R170). -/
theorem reset_inv (cfg : Config) : Block.reset.Inv cfg := by
  refine ⟨len_pos cfg, fun s => ?_⟩
  rw [← readButton_eq, readButton_reset]
  split <;> rfl

/-- The good blocks depend on the offset and the bank alone. -/
theorem Block.Inv.congr {cfg : Config} {b b' : Block} (h : b.Inv cfg) (hoff : b'.lastOffset = b.lastOffset)
    (hbtn : b'.btn = b.btn) : b'.Inv cfg := by
  rw [Block.Inv, hoff, hbtn]
  exact h

/-- What a full read without a time regress leaves of a good block is good (R21, R33). -/
theorem fullRead_inv {s : State} {b : Block} (d : Lanes) {now : Time} (h : s.Inv) (hnow : NoTimeRegress s now)
    (hoff : b.lastOffset = offsetAfter s.config d s.block) (hbtn : b.btn = (bankAfter s.config d now s.block).1) :
    b.Inv s.config := by
  obtain ⟨hlast, hbank⟩ := h
  refine ⟨?_, fun sel => ?_⟩
  · rw [hoff]
    rcases offsetAfter_cases s.config d s.block with hkept | ⟨hlt, -⟩
    · rw [hkept]
      exact hlast
    · exact hlt
  · rw [hbtn]
    have hsel := hbank sel
    cases hp : present s.config sel.val with
    | true =>
      rw [hp, if_pos rfl] at hsel
      rw [if_pos rfl, bankAfter_lane s.config d now s.block hp]
      exact stepButton_consistent _ _ _ hsel fun t ht => hnow sel hp t (.inr (.inl ht))
    | false =>
      rw [hp, if_neg Bool.false_ne_true] at hsel
      rw [if_neg Bool.false_ne_true, bankAfter_absent s.config d now s.block hp, hsel]

/-- Every command that completes from a good state ends in one. -/
theorem exec_inv {i : Instr} {s t : State} (h : exec i s = .next t) (hinv : s.Inv) : t.Inv := by
  obtain ⟨hcfg, -⟩ := exec_frame h
  rw [State.Inv, hcfg]
  rcases exec_machines h with ⟨_, -, hreset⟩ | ⟨hoff, hbtn⟩ | ⟨_, d, now, -, -, hnow, hoff, hbtn⟩
  · rw [hreset]
    exact reset_inv s.config
  · exact hinv.congr hoff hbtn
  · exact fullRead_inv d hinv hnow hoff hbtn

/-- Settles O40: an idle step and a taken input keep the block, a pulse resets it, and a command keeps the invariant. -/
theorem everyStepKeepsAGoodState : Obligations.EveryStepKeepsAGoodState := by
  intro s t hinv h
  rcases step_cases h with ⟨-, rfl⟩ | ⟨rest, -, rfl⟩ | ⟨c, rest, -, hexec⟩
  · exact hinv
  · exact reset_inv s.config
  · exact exec_inv hexec hinv

/-- Settles O39: the reset block is good. -/
theorem resetStateIsGood : Obligations.ResetStateIsGood := reset_inv

/-- Every reached state is good: the reset state is, whatever its inputs, and each step keeps it. -/
theorem Reachable.inv {s : State} (h : Reachable s) : s.Inv := by
  induction h with
  | reset cfg _ => exact reset_inv cfg
  | step s t _ h ih => exact everyStepKeepsAGoodState s t ih h

/-! ### The events of reached states -/

/-- Only a full read reports an event (R81, R82). -/
theorem full_of_event {n : BitVec 4} {d : Lanes} {now : Time} {s t : State} {r : FrameOut} {e : Event}
    (h : exec (.chunk n d now) s = .next t) (hr : t.response = some (.frameOut r)) (he : e ∈ r.events) :
    n.toNat = s.config.len := by
  rcases execChunk_cases h with ⟨-, rfl⟩ | ⟨-, rfl⟩ | ⟨hn, -, -⟩
  · obtain rfl := Response.frameOut.inj (Option.some.inj hr)
    simp at he
  · obtain rfl := Response.frameOut.inj (Option.some.inj hr)
    simp at he
  · exact hn

/-- Settles O41: an event is a release of a Pressed instance, which in a good state has a press time, not after `now`. -/
theorem reachedEventsAreMeasuredFromARecordedPress : Obligations.ReachedEventsAreMeasuredFromARecordedPress := by
  intro s t n d now r hreach h hr e he
  have hn := full_of_event h hr he
  have hnow := noTimeRegress_of_exec hn h
  obtain ⟨hbtn, rfl⟩ := fullRead_result hn h hr
  obtain ⟨sel, hp, hl, hraw, rfl⟩ := (mem_frameAfter_events s.config d now s.block).1 he
  obtain ⟨-, hbank⟩ := hreach.inv
  obtain ⟨-, hpressed, -, -⟩ := consistent_iff.1 ((if_pos hp).mp (hbank sel))
  obtain ⟨p, hpress⟩ := Option.isSome_iff_exists.1 (hpressed hl)
  have hlane : t.block.btn[sel] = acceptRelease s.block.btn[sel] now := by
    rw [hbtn, bankAfter_lane s.config d now s.block hp, hraw, stepButton_release _ _ _ hl]
  refine ⟨sel, p, releaseEvent_src .., hp, hl, hpress, ?_, by rw [hlane]; rfl, by rw [hlane]; rfl⟩
  rw [releaseEvent_dur, heldDuration_some hpress]
  exact sub_toNat_of_le (hnow sel hp p (.inr (.inl hpress)))

/-! ### The spacing of accepted presses -/

/-- The time `b` is `a`, or at least the interval later (R111). -/
def SameOrSpaced (interval a b : Time) : Prop := b = a ∨ a.toNat + interval.toNat ≤ b.toNat

theorem SameOrSpaced.trans {interval a b c : Time} (hab : SameOrSpaced interval a b) (hbc : SameOrSpaced interval b c) :
    SameOrSpaced interval a c := by
  rcases hab with rfl | hab
  · exact hbc
  · rcases hbc with rfl | hbc
    · exact .inr hab
    · exact .inr (by omega)

/-- One instance's step keeps its recorded press time or, if it accepts a press, sets one the interval later (R111). -/
theorem stepButton_spaced (cfg : Config) (s : Nat) {st : ButtonState} (raw : Bool) {now a : Time}
    (ha : st.lastDebounceTime = some a) (hle : a ≤ now) :
    ∃ b, (stepButton cfg s st raw now).1.lastDebounceTime = some b ∧ SameOrSpaced cfg.debounceTicks a b := by
  rcases stepButton_cases cfg s st raw now with ⟨hstep, -⟩ | ⟨-, -, haccept, hstep⟩ | ⟨-, -, hstep⟩ <;> rw [hstep]
  · exact ⟨a, ha, .inl rfl⟩
  · exact ⟨now, rfl, .inr ((pressAccepted_iff cfg ha hle).1 haccept)⟩
  · exact ⟨a, ha, .inl rfl⟩

/-- A transaction that does not reset the block is no SRST (R133). -/
theorem decode_ne_srst {c : Command} (h : (HostInput.command c).resets = false) (arg : BitVec 4) : decode c ≠ .srst arg := by
  intro hc
  simp [HostInput.resets, hc] at h

/-- A command that is no SRST keeps a recorded press time, or sets one the interval later. -/
theorem exec_spaced {i : Instr} {s t : State} {sel : Fin 10} {a : Time} (h : exec i s = .next t)
    (hi : ∀ arg, i ≠ .srst arg) (hp : present s.config sel.val = true)
    (ha : s.block.btn[sel].lastDebounceTime = some a) :
    ∃ b, t.block.btn[sel].lastDebounceTime = some b ∧ SameOrSpaced s.config.debounceTicks a b := by
  rcases exec_machines h with ⟨arg, rfl, -⟩ | ⟨-, hbtn⟩ | ⟨_, d, now, -, -, hnow, -, hbtn⟩
  · exact absurd rfl (hi arg)
  · rw [hbtn]
    exact ⟨a, ha, .inl rfl⟩
  · rw [hbtn, bankAfter_lane s.config d now s.block hp]
    exact stepButton_spaced _ _ _ ha (hnow sel hp a (.inl ha))

/-- A step keeps the build and takes at most one input off (R35, R50). -/
theorem step_frame {s t : State} (h : Machine.step s = .next t) : t.config = s.config ∧ t.inbox = s.inbox.tail := by
  rcases step_cases h with ⟨hin, rfl⟩ | ⟨rest, hin, rfl⟩ | ⟨c, rest, hin, hexec⟩ <;> rw [hin]
  · exact ⟨rfl, rfl⟩
  · exact ⟨rfl, rfl⟩
  · exact exec_frame hexec

/-- A step whose inputs do not reset the block keeps a recorded press time, or sets one the interval later. -/
theorem step_spaced {s t : State} {sel : Fin 10} {a : Time} (h : Machine.step s = .next t)
    (hin : ∀ x ∈ s.inbox, x.resets = false) (hp : present s.config sel.val = true)
    (ha : s.block.btn[sel].lastDebounceTime = some a) :
    ∃ b, t.block.btn[sel].lastDebounceTime = some b ∧ SameOrSpaced s.config.debounceTicks a b := by
  rcases step_cases h with ⟨-, rfl⟩ | ⟨rest, hinbox, -⟩ | ⟨c, rest, hinbox, hexec⟩
  · exact ⟨a, ha, .inl rfl⟩
  · have := hin .reset (by simp [hinbox])
    cases this
  · exact exec_spaced (s := { s with inbox := rest }) hexec (decode_ne_srst (hin (.command c) (by simp [hinbox]))) hp ha

/-- Settles O42: by induction on the number of steps, each of which keeps the press time or moves it by the interval. -/
theorem acceptedPressesAreSpacedAlongRuns : Obligations.AcceptedPressesAreSpacedAlongRuns := by
  intro k
  induction k with
  | zero =>
    intro s t sel a _ _ h ha
    rw [runSteps_zero, Host.Outcome.next.injEq] at h
    exact ⟨a, h ▸ ha, .inl rfl⟩
  | succ k ih =>
    intro s t sel a hp hin h ha
    obtain ⟨u, hstep, hrun⟩ := runSteps_succ_cases h
    obtain ⟨hcfg, hinbox⟩ := step_frame hstep
    obtain ⟨b, hb, hab⟩ := step_spaced hstep hin hp ha
    obtain ⟨c, hc, hbc⟩ :=
      ih u t sel b (hcfg ▸ hp) (fun x hx => hin x (List.mem_of_mem_tail (hinbox ▸ hx))) hrun hb
    exact ⟨c, hc, hab.trans (hcfg ▸ hbc)⟩

end Sys2Proof.Machine
